-- ==== Sys2Proof/Word.lean ====
section
/-! DEFINITION. The word types of the hardware (00_scope.md R7). -/

namespace Sys2Proof

/-- A register, timer or memory byte (R7: `REG_W` = 8, unsigned). -/
abbrev Byte := BitVec 8

/-- PC, I, a stack entry, an opcode, or the KEY array (R7: 16 bits). -/
abbrev Word := BitVec 16

/-- A register number or the sprite row count: one nibble of the opcode (R93). -/
abbrev Nibble := BitVec 4

/-- The 12-bit address field `nnn`, and an address of the host's load port (R50, R93). -/
abbrev Addr := BitVec 12

end Sys2Proof
end

