-- ==== Sys2Proof/Syntax.lean ====
section
/-! DEFINITION. The instructions: one constructor per row of spec/opcode_table.json (30_encoding.md R94, R105).
A constructor also keeps the bits its handler ignores (`dc`, `n`, `m`, `y`), because whether they are canonical
decides the NONCANON event (R107) and because encoding then loses nothing (log 6). -/

namespace Sys2Proof

inductive Instr where
  /-- CLS, 00E0 and every 0nn0 (R98, R220); `dc` is bits 11:4. -/
  | cls (dc : Byte)
  /-- RET, 00EE and every 0nnE (R98, R142); `dc` is bits 11:4. -/
  | ret (dc : Byte)
  /-- JP nnn, 1nnn (R141). -/
  | jp (nnn : Addr)
  /-- CALL nnn, 2nnn (R144). -/
  | call (nnn : Addr)
  /-- SE Vx, kk, 3xkk (R201). -/
  | seImm (x : Nibble) (kk : Byte)
  /-- SNE Vx, kk, 4xkk (R202). -/
  | sneImm (x : Nibble) (kk : Byte)
  /-- SE Vx, Vy, 5xy0 and every 5xyn (R97, R203); `n` is the ignored low nibble. -/
  | seReg (x y n : Nibble)
  /-- LD Vx, kk, 6xkk (R162). -/
  | ldImm (x : Nibble) (kk : Byte)
  /-- ADD Vx, kk, 7xkk (R163). -/
  | addImm (x : Nibble) (kk : Byte)
  /-- LD Vx, Vy, 8xy0 (R164). -/
  | ldReg (x y : Nibble)
  /-- OR Vx, Vy, 8xy1 (R165). -/
  | orReg (x y : Nibble)
  /-- AND Vx, Vy, 8xy2 (R166). -/
  | andReg (x y : Nibble)
  /-- XOR Vx, Vy, 8xy3 (R167). -/
  | xorReg (x y : Nibble)
  /-- ADD Vx, Vy, 8xy4 (R168). -/
  | addReg (x y : Nibble)
  /-- SUB Vx, Vy, 8xy5 (R169). -/
  | subReg (x y : Nibble)
  /-- SHR Vx, 8xy6 (R170); `y` is encoded and ignored. -/
  | shr (x y : Nibble)
  /-- SUBN Vx, Vy, 8xy7 (R171). -/
  | subn (x y : Nibble)
  /-- SHL Vx, 8xyE (R172); `y` is encoded and ignored. -/
  | shl (x y : Nibble)
  /-- SNE Vx, Vy, 9xy0 and every 9xyn (R97, R204); `n` is the ignored low nibble. -/
  | sneReg (x y n : Nibble)
  /-- LD I, nnn, Annn (R240). -/
  | ldI (nnn : Addr)
  /-- JP V0, nnn, Bnnn (R147). -/
  | jpV0 (nnn : Addr)
  /-- RND Vx, kk, Cxkk (R173). -/
  | rnd (x : Nibble) (kk : Byte)
  /-- DRW Vx, Vy, n, Dxyn (R221). -/
  | drw (x y n : Nibble)
  /-- SKP Vx, Ex9E and every ExmE (R100, R205); `m` is bits 7:4. -/
  | skp (x m : Nibble)
  /-- SKNP Vx, ExA1 and every Exm1 (R100, R206); `m` is bits 7:4. -/
  | sknp (x m : Nibble)
  /-- LD Vx, DT, Fx07 (R242). -/
  | ldVxDt (x : Nibble)
  /-- LD Vx, K, Fx0A (R260). -/
  | ldVxK (x : Nibble)
  /-- LD DT, Vx, Fx15 (R243). -/
  | ldDtVx (x : Nibble)
  /-- LD ST, Vx, Fx18 (R244). -/
  | ldStVx (x : Nibble)
  /-- ADD I, Vx, Fx1E (R241). -/
  | addI (x : Nibble)
  /-- LD F, Vx, Fx29 (R230). -/
  | ldF (x : Nibble)
  /-- LD B, Vx, Fx33 (R246). -/
  | ldB (x : Nibble)
  /-- LD [I], Vx, Fx55 (R248). -/
  | storeRegs (x : Nibble)
  /-- LD Vx, [I], Fx65 (R250). -/
  | loadRegs (x : Nibble)
  /-- SYS nnn, a 0nnn whose low nibble is neither 0 nor E (R98, R140). -/
  | sys (nnn : Addr)
  /-- An opcode of family 8, E or F that no handler is mapped to (R99–R101, R140). -/
  | unmapped (op : Word)
  deriving DecidableEq, Repr

end Sys2Proof
end

