-- ==== Sys2Proof/WellFormed.lean ====
section
/-! DEFINITION. Which terms of `Instr` stand for an opcode. Every operand value of a mapped instruction is
legal (30_encoding.md R93); only the two no-op rows are restricted, to the opcodes that decode sends to the
no-op handler (R98–R101). -/

namespace Sys2Proof

/-- A low nibble of family 0 with no handler (R98). -/
def isSysSelector (s : Nibble) : Bool :=
  s != 0x0#4 && s != 0xE#4

/-- A low nibble of family 8 with no handler: 8–D and F (R99). -/
def isUnmapped8 (s : Nibble) : Bool :=
  [0x8#4, 0x9#4, 0xA#4, 0xB#4, 0xC#4, 0xD#4, 0xF#4].contains s

/-- A low nibble of family E with no handler (R100). -/
def isUnmappedE (s : Nibble) : Bool :=
  s != 0xE#4 && s != 0x1#4

/-- A low byte of family F with no handler (R101). -/
def isUnmappedF (s : Byte) : Bool :=
  !([0x07#8, 0x0A#8, 0x15#8, 0x18#8, 0x1E#8, 0x29#8, 0x33#8, 0x55#8, 0x65#8].contains s)

/-- An opcode outside family 0 that decode sends to the no-op handler (R99–R101). -/
def isUnmapped (op : Word) : Bool :=
  let prefixNibble := op.extractLsb' 12 4
  (prefixNibble == 0x8#4 && isUnmapped8 (op.extractLsb' 0 4)) ||
  (prefixNibble == 0xE#4 && isUnmappedE (op.extractLsb' 0 4)) ||
  (prefixNibble == 0xF#4 && isUnmappedF (op.extractLsb' 0 8))

/-- The instruction stands for an opcode. -/
def Instr.wellFormed : Instr → Bool
  | .sys nnn => isSysSelector (nnn.extractLsb' 0 4)
  | .unmapped op => isUnmapped op
  | .cls _ | .ret _ | .jp _ | .call _ | .seImm _ _ | .sneImm _ _ | .seReg _ _ _ | .ldImm _ _
  | .addImm _ _ | .ldReg _ _ | .orReg _ _ | .andReg _ _ | .xorReg _ _ | .addReg _ _ | .subReg _ _
  | .shr _ _ | .subn _ _ | .shl _ _ | .sneReg _ _ _ | .ldI _ | .jpV0 _ | .rnd _ _ | .drw _ _ _
  | .skp _ _ | .sknp _ _ | .ldVxDt _ | .ldVxK _ | .ldDtVx _ | .ldStVx _ | .addI _ | .ldF _
  | .ldB _ | .storeRegs _ | .loadRegs _ => true

end Sys2Proof
end

