-- ==== Sys2Proof/Decode.lean ====
section
/-! DEFINITION. Decoding, a total function on the 65,536 opcodes (30_encoding.md R90–R104), the encoder beside
it, and the opcode table as data. -/

namespace Sys2Proof

/-! ### Fields of the opcode (R92) -/

def fieldPrefix (op : Word) : Nibble := op.extractLsb' 12 4
def fieldX (op : Word) : Nibble := op.extractLsb' 8 4
def fieldY (op : Word) : Nibble := op.extractLsb' 4 4
def fieldN (op : Word) : Nibble := op.extractLsb' 0 4
def fieldKk (op : Word) : Byte := op.extractLsb' 0 8
def fieldNnn (op : Word) : Addr := op.extractLsb' 0 12
/-- Bits 11:4, which family 0 never examines (R98). -/
def fieldDc (op : Word) : Byte := op.extractLsb' 4 8

/-! ### The two-level dispatch (R95–R101) -/

/-- Family 0: the selector is the low nibble (R98). -/
def decodeFamily0 (op : Word) : Instr :=
  if fieldN op = 0x0#4 then .cls (fieldDc op)
  else if fieldN op = 0xE#4 then .ret (fieldDc op)
  else .sys (fieldNnn op)

/-- Family 8: the selector is the low nibble (R99). -/
def decodeFamily8 (op : Word) : Instr :=
  let x := fieldX op
  let y := fieldY op
  if fieldN op = 0x0#4 then .ldReg x y
  else if fieldN op = 0x1#4 then .orReg x y
  else if fieldN op = 0x2#4 then .andReg x y
  else if fieldN op = 0x3#4 then .xorReg x y
  else if fieldN op = 0x4#4 then .addReg x y
  else if fieldN op = 0x5#4 then .subReg x y
  else if fieldN op = 0x6#4 then .shr x y
  else if fieldN op = 0x7#4 then .subn x y
  else if fieldN op = 0xE#4 then .shl x y
  else .unmapped op

/-- Family E: the selector is the low nibble, bits 7:4 are not examined (R100). -/
def decodeFamilyE (op : Word) : Instr :=
  if fieldN op = 0xE#4 then .skp (fieldX op) (fieldY op)
  else if fieldN op = 0x1#4 then .sknp (fieldX op) (fieldY op)
  else .unmapped op

/-- Family F: the selector is the low byte (R101). -/
def decodeFamilyF (op : Word) : Instr :=
  let x := fieldX op
  if fieldKk op = 0x07#8 then .ldVxDt x
  else if fieldKk op = 0x0A#8 then .ldVxK x
  else if fieldKk op = 0x15#8 then .ldDtVx x
  else if fieldKk op = 0x18#8 then .ldStVx x
  else if fieldKk op = 0x1E#8 then .addI x
  else if fieldKk op = 0x29#8 then .ldF x
  else if fieldKk op = 0x33#8 then .ldB x
  else if fieldKk op = 0x55#8 then .storeRegs x
  else if fieldKk op = 0x65#8 then .loadRegs x
  else .unmapped op

/-- Level 1: the sixteen entries of the top-level table, keyed by the prefix (R95, R97). -/
def decodeWord (op : Word) : Instr :=
  if fieldPrefix op = 0x0#4 then decodeFamily0 op
  else if fieldPrefix op = 0x1#4 then .jp (fieldNnn op)
  else if fieldPrefix op = 0x2#4 then .call (fieldNnn op)
  else if fieldPrefix op = 0x3#4 then .seImm (fieldX op) (fieldKk op)
  else if fieldPrefix op = 0x4#4 then .sneImm (fieldX op) (fieldKk op)
  else if fieldPrefix op = 0x5#4 then .seReg (fieldX op) (fieldY op) (fieldN op)
  else if fieldPrefix op = 0x6#4 then .ldImm (fieldX op) (fieldKk op)
  else if fieldPrefix op = 0x7#4 then .addImm (fieldX op) (fieldKk op)
  else if fieldPrefix op = 0x8#4 then decodeFamily8 op
  else if fieldPrefix op = 0x9#4 then .sneReg (fieldX op) (fieldY op) (fieldN op)
  else if fieldPrefix op = 0xA#4 then .ldI (fieldNnn op)
  else if fieldPrefix op = 0xB#4 then .jpV0 (fieldNnn op)
  else if fieldPrefix op = 0xC#4 then .rnd (fieldX op) (fieldKk op)
  else if fieldPrefix op = 0xD#4 then .drw (fieldX op) (fieldY op) (fieldN op)
  else if fieldPrefix op = 0xE#4 then decodeFamilyE op
  else decodeFamilyF op

/-! ### Bytes -/

/-- Why bytes do not decode. No opcode is illegal (R103), so too few bytes is the only reason. -/
inductive DecodeError where
  /-- Fewer than the two bytes every instruction has (R90). The machine's fetch always supplies two, so it
  never meets this; safe. -/
  | truncated
  deriving DecidableEq, Repr

/-- Two bytes combined big-endian: the byte at the lower address is the high one (20_memory.md R64). -/
def wordOfBytes (hi lo : Byte) : Word := hi ++ lo

/-- The byte at the lower address (R64). -/
def highByte (op : Word) : Byte := op.extractLsb' 8 8

/-- The byte at the higher address (R64). -/
def lowByte (op : Word) : Byte := op.extractLsb' 0 8

/-- Read one instruction from the front of the bytes and give the rest back. -/
def decodeBytes : List Byte → Except DecodeError (Instr × List Byte)
  | hi :: lo :: rest => .ok (decodeWord (wordOfBytes hi lo), rest)
  | [_] => .error .truncated
  | [] => .error .truncated

/-! ### The encoder (R105) -/

/-- The opcode of an instruction, its ignored bits included. -/
def encode : Instr → Word
  | .cls dc => 0x0#4 ++ dc ++ 0x0#4
  | .ret dc => 0x0#4 ++ dc ++ 0xE#4
  | .jp nnn => 0x1#4 ++ nnn
  | .call nnn => 0x2#4 ++ nnn
  | .seImm x kk => 0x3#4 ++ x ++ kk
  | .sneImm x kk => 0x4#4 ++ x ++ kk
  | .seReg x y n => 0x5#4 ++ x ++ y ++ n
  | .ldImm x kk => 0x6#4 ++ x ++ kk
  | .addImm x kk => 0x7#4 ++ x ++ kk
  | .ldReg x y => 0x8#4 ++ x ++ y ++ 0x0#4
  | .orReg x y => 0x8#4 ++ x ++ y ++ 0x1#4
  | .andReg x y => 0x8#4 ++ x ++ y ++ 0x2#4
  | .xorReg x y => 0x8#4 ++ x ++ y ++ 0x3#4
  | .addReg x y => 0x8#4 ++ x ++ y ++ 0x4#4
  | .subReg x y => 0x8#4 ++ x ++ y ++ 0x5#4
  | .shr x y => 0x8#4 ++ x ++ y ++ 0x6#4
  | .subn x y => 0x8#4 ++ x ++ y ++ 0x7#4
  | .shl x y => 0x8#4 ++ x ++ y ++ 0xE#4
  | .sneReg x y n => 0x9#4 ++ x ++ y ++ n
  | .ldI nnn => 0xA#4 ++ nnn
  | .jpV0 nnn => 0xB#4 ++ nnn
  | .rnd x kk => 0xC#4 ++ x ++ kk
  | .drw x y n => 0xD#4 ++ x ++ y ++ n
  | .skp x m => 0xE#4 ++ x ++ m ++ 0xE#4
  | .sknp x m => 0xE#4 ++ x ++ m ++ 0x1#4
  | .ldVxDt x => 0xF#4 ++ x ++ 0x07#8
  | .ldVxK x => 0xF#4 ++ x ++ 0x0A#8
  | .ldDtVx x => 0xF#4 ++ x ++ 0x15#8
  | .ldStVx x => 0xF#4 ++ x ++ 0x18#8
  | .addI x => 0xF#4 ++ x ++ 0x1E#8
  | .ldF x => 0xF#4 ++ x ++ 0x29#8
  | .ldB x => 0xF#4 ++ x ++ 0x33#8
  | .storeRegs x => 0xF#4 ++ x ++ 0x55#8
  | .loadRegs x => 0xF#4 ++ x ++ 0x65#8
  | .sys nnn => 0x0#4 ++ nnn
  | .unmapped op => op

/-! ### Canonical encodings (R105, R107) -/

/-- The instruction's ignored bits differ from its canonical encoding, so that dispatching it performs
`event(NONCANON)` (R107). The y field of SHR and SHL counts as canonical whatever it is. -/
def Instr.nonCanonical : Instr → Bool
  | .cls dc => dc != 0x0E#8
  | .ret dc => dc != 0x0E#8
  | .seReg _ _ n => n != 0x0#4
  | .sneReg _ _ n => n != 0x0#4
  | .skp _ m => m != 0x9#4
  | .sknp _ m => m != 0xA#4
  | .jp _ | .call _ | .seImm _ _ | .sneImm _ _ | .ldImm _ _ | .addImm _ _ | .ldReg _ _ | .orReg _ _
  | .andReg _ _ | .xorReg _ _ | .addReg _ _ | .subReg _ _ | .shr _ _ | .subn _ _ | .shl _ _ | .ldI _
  | .jpV0 _ | .rnd _ _ | .drw _ _ _ | .ldVxDt _ | .ldVxK _ | .ldDtVx _ | .ldStVx _ | .addI _ | .ldF _
  | .ldB _ | .storeRegs _ | .loadRegs _ | .sys _ | .unmapped _ => false

/-! ### The opcode table as data (spec/opcode_table.json, R104) -/

/-- A row of the opcode table: an opcode matches when `op &&& mask = pattern`. -/
structure OpcodeRow where
  mnemonic : String
  mask : Word
  pattern : Word
  deriving DecidableEq, Repr

/-- The rows of priority 0 with prefixes 0 to 7, pairwise disjoint (R104). -/
def opcodeRowsLow : List OpcodeRow := [
  ⟨"CLS", 0xF00F#16, 0x0000#16⟩, ⟨"RET", 0xF00F#16, 0x000E#16⟩,
  ⟨"JP_nnn", 0xF000#16, 0x1000#16⟩, ⟨"CALL_nnn", 0xF000#16, 0x2000#16⟩,
  ⟨"SE_Vx__kk", 0xF000#16, 0x3000#16⟩, ⟨"SNE_Vx__kk", 0xF000#16, 0x4000#16⟩,
  ⟨"SE_Vx__Vy", 0xF000#16, 0x5000#16⟩, ⟨"LD_Vx__kk", 0xF000#16, 0x6000#16⟩,
  ⟨"ADD_Vx__kk", 0xF000#16, 0x7000#16⟩]

/-- The rows of priority 0 with prefixes 8 to E. -/
def opcodeRowsHigh : List OpcodeRow := [
  ⟨"LD_Vx__Vy", 0xF00F#16, 0x8000#16⟩, ⟨"OR_Vx__Vy", 0xF00F#16, 0x8001#16⟩,
  ⟨"AND_Vx__Vy", 0xF00F#16, 0x8002#16⟩, ⟨"XOR_Vx__Vy", 0xF00F#16, 0x8003#16⟩,
  ⟨"ADD_Vx__Vy", 0xF00F#16, 0x8004#16⟩, ⟨"SUB_Vx__Vy", 0xF00F#16, 0x8005#16⟩,
  ⟨"SHR_Vx", 0xF00F#16, 0x8006#16⟩, ⟨"SUBN_Vx__Vy", 0xF00F#16, 0x8007#16⟩,
  ⟨"SHL_Vx", 0xF00F#16, 0x800E#16⟩, ⟨"SNE_Vx__Vy", 0xF000#16, 0x9000#16⟩,
  ⟨"LD_I__nnn", 0xF000#16, 0xA000#16⟩, ⟨"JP_V0__nnn", 0xF000#16, 0xB000#16⟩,
  ⟨"RND_Vx__kk", 0xF000#16, 0xC000#16⟩, ⟨"DRW_Vx__Vy__n", 0xF000#16, 0xD000#16⟩,
  ⟨"SKP_Vx", 0xF00F#16, 0xE00E#16⟩, ⟨"SKNP_Vx", 0xF00F#16, 0xE001#16⟩]

/-- The rows of priority 0 with prefix F. -/
def opcodeRowsF : List OpcodeRow := [
  ⟨"LD_Vx__DT", 0xF0FF#16, 0xF007#16⟩, ⟨"LD_Vx__K", 0xF0FF#16, 0xF00A#16⟩,
  ⟨"LD_DT__Vx", 0xF0FF#16, 0xF015#16⟩, ⟨"LD_ST__Vx", 0xF0FF#16, 0xF018#16⟩,
  ⟨"ADD_I__Vx", 0xF0FF#16, 0xF01E#16⟩, ⟨"LD_F__Vx", 0xF0FF#16, 0xF029#16⟩,
  ⟨"LD_B__Vx", 0xF0FF#16, 0xF033#16⟩, ⟨"LD__I___Vx", 0xF0FF#16, 0xF055#16⟩,
  ⟨"LD_Vx___I", 0xF0FF#16, 0xF065#16⟩]

/-- The rows of priority 0 (R104). -/
def opcodeRows0 : List OpcodeRow := opcodeRowsLow ++ opcodeRowsHigh ++ opcodeRowsF

/-- The whole table in the order of its priorities: 0, then SYS (1), then the catch-all (2). -/
def opcodeTable : List OpcodeRow :=
  opcodeRows0 ++ [⟨"SYS_nnn", 0xF000#16, 0x0000#16⟩, ⟨"(unmapped)", 0x0000#16, 0x0000#16⟩]

def OpcodeRow.accepts (r : OpcodeRow) (op : Word) : Bool := op &&& r.mask == r.pattern

/-- The mnemonic of the first row, in order of priority, that matches the opcode (R104). -/
def tableMnemonic (op : Word) : Option String :=
  (opcodeTable.find? (·.accepts op)).map (·.mnemonic)

/-- The table's mnemonic of an instruction. -/
def Instr.mnemonic : Instr → String
  | .cls _ => "CLS"
  | .ret _ => "RET"
  | .jp _ => "JP_nnn"
  | .call _ => "CALL_nnn"
  | .seImm _ _ => "SE_Vx__kk"
  | .sneImm _ _ => "SNE_Vx__kk"
  | .seReg _ _ _ => "SE_Vx__Vy"
  | .ldImm _ _ => "LD_Vx__kk"
  | .addImm _ _ => "ADD_Vx__kk"
  | .ldReg _ _ => "LD_Vx__Vy"
  | .orReg _ _ => "OR_Vx__Vy"
  | .andReg _ _ => "AND_Vx__Vy"
  | .xorReg _ _ => "XOR_Vx__Vy"
  | .addReg _ _ => "ADD_Vx__Vy"
  | .subReg _ _ => "SUB_Vx__Vy"
  | .shr _ _ => "SHR_Vx"
  | .subn _ _ => "SUBN_Vx__Vy"
  | .shl _ _ => "SHL_Vx"
  | .sneReg _ _ _ => "SNE_Vx__Vy"
  | .ldI _ => "LD_I__nnn"
  | .jpV0 _ => "JP_V0__nnn"
  | .rnd _ _ => "RND_Vx__kk"
  | .drw _ _ _ => "DRW_Vx__Vy__n"
  | .skp _ _ => "SKP_Vx"
  | .sknp _ _ => "SKNP_Vx"
  | .ldVxDt _ => "LD_Vx__DT"
  | .ldVxK _ => "LD_Vx__K"
  | .ldDtVx _ => "LD_DT__Vx"
  | .ldStVx _ => "LD_ST__Vx"
  | .addI _ => "ADD_I__Vx"
  | .ldF _ => "LD_F__Vx"
  | .ldB _ => "LD_B__Vx"
  | .storeRegs _ => "LD__I___Vx"
  | .loadRegs _ => "LD_Vx___I"
  | .sys _ => "SYS_nnn"
  | .unmapped _ => "(unmapped)"

/-! ### The host's entry point -/

/-- The instruction read from an opcode numbered as spec/opcode_table.json numbers it (R9: bit 0 is the least
significant bit of the 16-bit opcode). Bits at and above `nbits` are 0; an instruction has 16 bits (R90), so a
longer number is refused. The two bytes are laid out as the hardware stores them, high byte first (R64). -/
def decodeTableWord (nbits w : Nat) : Option Instr :=
  if w % 2 ^ nbits < 2 ^ 16 then
    let op : Word := BitVec.ofNat 16 (w % 2 ^ nbits)
    match decodeBytes [highByte op, lowByte op] with
    | .ok (i, _) => some i
    | .error _ => none
  else none

end Sys2Proof
end

