-- ==== Sys2Proof/Config.lean ====
section
/-! DEFINITION. The inputs of one cycle and their free values (10_state.md R47–R51, 60_exceptions.md R291). -/

namespace Sys2Proof

/-- What the host supplies for one cycle: whether a timer tick boundary has elapsed (R48), the random byte
(R49), and the KEY value it writes before the cycle, if it writes one (R51). -/
structure CycleInput where
  tick : Bool
  rnd : Byte
  keyWrite : Option Word
  deriving DecidableEq, Repr

/-- FREE VALUE (log 1): whether a tick boundary has elapsed in cycle number `n`. The host owns the cadence
(R48, R291), so nothing constrains it. -/
opaque Config.tick : Nat → Bool

/-- FREE VALUE (log 1): the random byte of cycle number `n`, a draw under no law (R49, R173). -/
opaque Config.rnd : Nat → Byte

/-- FREE VALUE (log 1): the KEY value the host writes before cycle number `n`, or none (R51, R291). -/
opaque Config.keyWrite : Nat → Option Word

end Sys2Proof
end

