-- ==== Sys2Proof/Machine/State.lean ====
section
/-! DEFINITION. The machine's state, the reasons a step can stop, and the state after reset (10_state.md). -/

namespace Sys2Proof.Machine

/-- The memory array MEM as the list of its bytes that differ from what they hold at reset (R30, R54), by
rising address. Sys2Proof/Machine/Memory.lean says what an unlisted address reads as. -/
abbrev Memory := List Host.Cell

/-- The frame buffer: row `y` is a word of 64 pixels whose bit `x` is `FB[y][x]`, 1 on, 0 off (R35, log 7). -/
abbrev FrameBuffer := Vector (BitVec 64) 32

/-- Every element of the tuple S of 10_state.md, then the model's own two fields for the host's inputs. -/
structure State where
  /-- V0–VF (R20); VF is `v[15]` (R21). -/
  v : Vector Byte 16
  /-- I, the index register (R27). -/
  i : Word
  /-- PC (R23): between cycles the address of the next instruction; during execute the advanced value. -/
  pc : Word
  /-- SP, the number of stack entries in use, 0..16 (R26, log 8). -/
  sp : Fin 17
  /-- The call stack, a register file of 16 return addresses (R25). -/
  stack : Vector Word 16
  /-- DT, the delay timer (R28). -/
  dt : Byte
  /-- ST, the sound timer (R29). -/
  st : Byte
  /-- MEM (R30). -/
  mem : Memory
  /-- FB (R35). -/
  fb : FrameBuffer
  /-- KEY: bit `k` is 1 when key `k` is pressed (R37, R51). -/
  key : Word
  /-- EVT, the sticky status register (R40, R41). -/
  evt : Byte
  /-- OP, the last opcode fetched (R43). -/
  op : Word
  /-- The MODEL's own: the inputs the host will supply for the coming cycles, oldest first (R291, log 2). When
  the list is empty the inputs are the free values of Config. -/
  inputs : List CycleInput
  /-- The MODEL's own: the number of this cycle, the argument of the free values (log 1). -/
  cycleNo : Nat
  deriving DecidableEq, Repr

/-- The faults of a step: there are none. "No instruction can fault, and no condition stops the core"
(60_exceptions.md R270, 00_scope.md R17), so no constructor exists and nothing raises one; safe (log 9). -/
inductive Fault where
  deriving DecidableEq, Repr

/-- Why an instruction has no meaning. -/
inductive Refusal where
  /-- Raised only by an arm of `exec` whose instruction has no meaning yet. No arm is such an arm: every
  instruction of the opcode table has its meaning. Raising it would be safe. -/
  | notModelled (mnemonic : String)
  deriving DecidableEq, Repr

/-- The state right after reset (R54): PC at 0x200, memory holding the font and zeros (nothing listed), every
other element zero. The model's own fields: no scripted input, cycle number 0 (DESIGN CHOICE, log 1, log 2). -/
def State.reset : State where
  v := Vector.replicate 16 0x00#8
  i := 0x0000#16
  pc := 0x0200#16
  sp := 0
  stack := Vector.replicate 16 0x0000#16
  dt := 0x00#8
  st := 0x00#8
  mem := []
  fb := Vector.replicate 32 0#64
  key := 0x0000#16
  evt := 0x00#8
  op := 0x0000#16
  inputs := []
  cycleNo := 0

end Sys2Proof.Machine
end

