-- ==== Sys2Proof/Machine/Memory.lean ====
section
/-! DEFINITION. The memory array: what an unlisted address reads as, reading and writing one byte, and the
canonical form (10_state.md R30–R34, 20_memory.md R60, R70: 4096 bytes, glyph 0 at 0x050). Addresses here are already reduced. -/

namespace Sys2Proof.Machine

/-- The default FONT, digits 0 to 7 (R34; PRESUMED by the spec from general knowledge, log 3). -/
def fontLow : List Byte := [
  0xF0, 0x90, 0x90, 0x90, 0xF0,  0x20, 0x60, 0x20, 0x20, 0x70,
  0xF0, 0x10, 0xF0, 0x80, 0xF0,  0xF0, 0x10, 0xF0, 0x10, 0xF0,
  0x90, 0x90, 0xF0, 0x10, 0x10,  0xF0, 0x80, 0xF0, 0x10, 0xF0,
  0xF0, 0x80, 0xF0, 0x90, 0xF0,  0xF0, 0x10, 0x20, 0x40, 0x40]

/-- The default FONT, digits 8 to F (R34, log 3). -/
def fontHigh : List Byte := [
  0xF0, 0x90, 0xF0, 0x90, 0xF0,  0xF0, 0x90, 0xF0, 0x10, 0xF0,
  0xF0, 0x90, 0xF0, 0x90, 0x90,  0xE0, 0x90, 0xE0, 0x90, 0xE0,
  0xF0, 0x80, 0x80, 0x80, 0xF0,  0xE0, 0x90, 0x90, 0x90, 0xE0,
  0xF0, 0x80, 0xF0, 0x80, 0xF0,  0xF0, 0x80, 0xF0, 0x80, 0x80]

/-- FONT: 16 glyphs of 5 bytes, top row first (R31, R34). -/
def font : List Byte := fontLow ++ fontHigh

/-- What an address that no entry lists reads as: its content at reset, the font at 0x050–0x09F and 0x00
everywhere else (R54, R70). -/
def initialByte (a : Nat) : Byte :=
  if 0x050 ≤ a then font.getD (a - 0x050) 0x00#8 else 0x00#8

/-- The byte at a reduced address. -/
def Memory.read : Memory → Nat → Byte
  | [], a => initialByte a
  | (a', b) :: m, a => if a = a' then b else Memory.read m a

/-- Put an entry before the first one of a higher address. -/
def Memory.insert (a : Nat) (b : Byte) : Memory → Memory
  | [] => [(a, b)]
  | (a', b') :: m => if a < a' then (a, b) :: (a', b') :: m else (a', b') :: Memory.insert a b m

/-- Remove what is listed at an address. -/
def Memory.erase (a : Nat) (m : Memory) : Memory :=
  m.filter fun cell => cell.1 != a

/-- Store a byte at a reduced address. Storing what an unlisted address reads as leaves no entry. -/
def Memory.write (m : Memory) (a : Nat) (b : Byte) : Memory :=
  if b = initialByte a then Memory.erase a m else Memory.insert a b (Memory.erase a m)

/-- The canonical form: addresses inside MEM and strictly rising, and no entry equal to what an unlisted
address reads as. -/
def Memory.wf : Memory → Bool
  | [] => true
  | (a, b) :: m => decide (a < 4096) && b != initialByte a && m.all (fun cell => decide (a < cell.1)) && Memory.wf m

end Sys2Proof.Machine
end

