-- ==== Sys2Proof/Machine/Ops.lean ====
section
/-! DEFINITION. The named operations over the registers, the events, the memory, the call stack and the frame
buffer, which the meanings are written over. The hardware takes no exception and returns from none
(60_exceptions.md R270–R275), so there is no operation for that: `State.event` is what stands in its place
(00_scope.md R13). -/

namespace Sys2Proof.Machine

/-! ### Events (00_scope.md R13, 10_state.md R40) -/

/-- The bits of EVT. -/
inductive Event where
  | stkOvf | stkUnf | addrWrap | idxWrap | unmapped | nonCanon | vfArg | clip
  deriving DecidableEq, Repr

/-- The bit number of an event in EVT (R40). -/
def Event.bit : Event → Nat
  | .stkOvf => 0
  | .stkUnf => 1
  | .addrWrap => 2
  | .idxWrap => 3
  | .unmapped => 4
  | .nonCanon => 5
  | .vfArg => 6
  | .clip => 7

/-- The event's bit in place. -/
def Event.mask (e : Event) : Byte := 1#8 <<< e.bit

/-- EVT with the event's bit set if the condition holds; no bit is ever cleared (R41). -/
def evtWith (c : Bool) (e : Event) (evt : Byte) : Byte :=
  if c then evt ||| e.mask else evt

/-- `if c: event(e)` (R13). -/
def State.eventIf (c : Bool) (e : Event) (s : State) : State :=
  { s with evt := evtWith c e s.evt }

/-- `event(e)` (R13). -/
def State.event (e : Event) (s : State) : State := s.eventIf true e

/-! ### General registers (10_state.md R20, R21) -/

theorem nibble_lt (x : Nibble) : x.toNat < 16 := x.isLt

/-- `V[x]`. -/
def State.reg (s : State) (x : Nibble) : Byte := s.v[x.toNat]'(nibble_lt x)

/-- `V[x] <- b`. -/
def State.setReg (x : Nibble) (b : Byte) (s : State) : State :=
  { s with v := s.v.set x.toNat b (nibble_lt x) }

/-- The number of VF (R21). -/
def vf : Nibble := 0xF#4

/-- `V[k] <- bytes[0]`, `V[k+1] <- bytes[1]`, … in that order. -/
def State.setRegs (k : Nat) : List Byte → State → State
  | [], s => s
  | b :: bs, s => State.setRegs (k + 1) bs (s.setReg (BitVec.ofNat 4 k) b)

/-- The bytes `V[0] … V[x]`. -/
def State.regsUpTo (s : State) (x : Nibble) : List Byte :=
  (List.range (x.toNat + 1)).map fun k => s.reg (BitVec.ofNat 4 k)

/-! ### The other registers -/

def State.setI (w : Word) (s : State) : State := { s with i := w }
/-- `PC <- w` (R24). -/
def State.setPc (w : Word) (s : State) : State := { s with pc := w }
def State.setDt (b : Byte) (s : State) : State := { s with dt := b }
def State.setSt (b : Byte) (s : State) : State := { s with st := b }
def State.setOp (w : Word) (s : State) : State := { s with op := w }
def State.setKey (w : Word) (s : State) : State := { s with key := w }
def State.setFb (f : FrameBuffer) (s : State) : State := { s with fb := f }

/-- `PC <- PC + 2`, modulo 2^16: the cycle's advance (40_cycle.md R122) and a skip (43_skip_compare.md R200). -/
def State.advance (s : State) : State := s.setPc (s.pc + 2)

/-! ### Memory (00_scope.md R12, 20_memory.md R62, R63)

Addresses are effective addresses, computed without bound and reduced modulo 4096 by the access. -/

/-- The byte an access at effective address `a` reads, without the access's event. -/
def State.peek (s : State) (a : Nat) : Byte := s.mem.read (a % 4096)

/-- The access's event: `event(ADDR_WRAP)` when the address is 4096 or more (R63). -/
def State.noteAddr (a : Nat) (s : State) : State := s.eventIf (decide (4096 ≤ a)) .addrWrap

/-- `MemRead(a, 1)` (R12). -/
def State.memRead (a : Nat) (s : State) : Byte × State := (s.peek a, s.noteAddr a)

/-- The store alone, without the access's event. -/
def State.poke (a : Nat) (b : Byte) (s : State) : State :=
  { s with mem := s.mem.write (a % 4096) b }

/-- `MemWrite(a, 1, b)` (R12). -/
def State.memWrite (a : Nat) (b : Byte) (s : State) : State := (s.noteAddr a).poke a b

/-- Read `n` bytes at `a`, `a + 1`, …, in that order. -/
def State.readBlock : Nat → Nat → State → List Byte × State
  | 0, _, s => ([], s)
  | n + 1, a, s =>
    let (b, s₁) := s.memRead a
    let (bs, s₂) := State.readBlock n (a + 1) s₁
    (b :: bs, s₂)

/-- Write the bytes at `a`, `a + 1`, …, in that order. -/
def State.writeBlock : List Byte → Nat → State → State
  | [], _, s => s
  | b :: bs, a, s => State.writeBlock bs (a + 1) (s.memWrite a b)

/-! ### The call stack (10_state.md R25, R26) -/

/-- CALL's push: the entry `stack[SP]` and SP + 1, or, on a full stack, nothing but `event(STK_OVF)`
(41_control_flow.md R144, R146). -/
def State.push (w : Word) (s : State) : State :=
  if h : s.sp.val < 16 then
    { s with stack := s.stack.set s.sp.val w h, sp := ⟨s.sp.val + 1, by omega⟩ }
  else s.event .stkOvf

/-- RET's pop into PC: SP − 1 and the entry it leaves, or, on an empty stack, nothing but `event(STK_UNF)`
(41_control_flow.md R142, R143). -/
def State.popPc (s : State) : State :=
  if h : s.sp.val = 0 then s.event .stkUnf
  else
    { s with sp := ⟨s.sp.val - 1, by omega⟩, pc := s.stack[s.sp.val - 1]'(by omega) }

/-! ### The frame buffer (10_state.md R35) -/

/-- Every pixel off. -/
def blankFb : FrameBuffer := Vector.replicate 32 0#64

/-- `FB[y][x] = 1`. A position outside the 64 × 32 grid is no pixel and reads as off. -/
def pixelAt (f : FrameBuffer) (x y : Nat) : Bool :=
  if h : y < 32 then f[y].getLsbD x else false

/-- `FB[y][x] <- FB[y][x] XOR 1`. -/
def flipPixel (f : FrameBuffer) (x y : Nat) : FrameBuffer :=
  if h : y < 32 then f.set y (f[y] ^^^ BitVec.twoPow 64 x) h else f

/-! ### The host's inputs of this cycle (10_state.md R48, R49, R51) -/

/-- This cycle's inputs: the next scripted ones, or, when none is scripted, the free values of this cycle's
number (log 1, log 2). -/
def State.input (s : State) : CycleInput :=
  match s.inputs with
  | [] => ⟨Config.tick s.cycleNo, Config.rnd s.cycleNo, Config.keyWrite s.cycleNo⟩
  | c :: _ => c

/-- The cycle is over: the next one has the next inputs. -/
def State.nextInput (s : State) : State :=
  { s with inputs := s.inputs.tail, cycleNo := s.cycleNo + 1 }

end Sys2Proof.Machine
end

