-- ==== Sys2Proof/Machine/Operands.lean ====
section
/-! DEFINITION. The operand forms (30_encoding.md R93, 43_skip_compare.md R207, 20_memory.md R62). -/

namespace Sys2Proof.Machine

/-- `zext_16(nnn)`: the only extension there is (00_scope.md R10). -/
def zextAddr (nnn : Addr) : Word := nnn.setWidth 16

/-- An 8-bit value added to a 16-bit register is zero-extended (R10). -/
def zextByte (b : Byte) : Word := b.setWidth 16

/-- The index of a key or glyph that a register names: `v AND 0x0F` (R207, R230). -/
def lowIndex (v : Byte) : Nibble := v.extractLsb' 0 4

/-- The register names no key or glyph, so that its low nibble is used: `v > 0x0F` (R207, R230). -/
def indexWraps (v : Byte) : Bool := decide (0x0F < v.toNat)

/-- `if v > 0x0F: event(IDX_WRAP)`. -/
def State.noteIndex (v : Byte) (s : State) : State := s.eventIf (indexWraps v) .idxWrap

/-- The key is pressed: `KEY[k] = 1` (10_state.md R37). -/
def State.pressed (s : State) (k : Nibble) : Bool := s.key.getLsbD k.toNat

/-- `min { k | KEY[k] = 1 }`, if any key is pressed (45_memory_timer_key.md R260, R261). -/
def lowestKey (key : Word) : Option Nat := (List.range 16).find? fun k => key.getLsbD k

/-- The address of glyph `d`, `0x050 + 5 * d` (44_sprite_display.md R230). -/
def glyphAddr (d : Nibble) : Word := BitVec.ofNat 16 (0x050 + 5 * d.toNat)

/-- The three decimal digits of a byte, hundreds first (45_memory_timer_key.md R246). -/
def bcdDigits (v : Byte) : List Byte :=
  [BitVec.ofNat 8 (v.toNat / 100), BitVec.ofNat 8 (v.toNat / 10 % 10), BitVec.ofNat 8 (v.toNat % 10)]

/-- The effective base address of the data instructions: I as a number (20_memory.md R62). -/
def State.base (s : State) : Nat := s.i.toNat

/-- `if x = F or y = F: event(VF_ARG)` (42_register_alu.md R160, 44_sprite_display.md R221). -/
def State.noteVfArg2 (x y : Nibble) (s : State) : State := s.eventIf (x == vf || y == vf) .vfArg

/-- `if x = F: event(VF_ARG)` (42_register_alu.md R170, R172). -/
def State.noteVfArg1 (x : Nibble) (s : State) : State := s.eventIf (x == vf) .vfArg

/-- `event(NONCANON)` for an instruction whose ignored bits are not canonical (30_encoding.md R107, log 6). -/
def State.noteCanon (nonCanonical : Bool) (s : State) : State := s.eventIf nonCanonical .nonCanon

end Sys2Proof.Machine
end

