-- ==== Sys2Proof/Machine/Flags.lean ====
section
/-! DEFINITION. The one flag, VF (10_state.md R38), and how each instruction computes it
(42_register_alu.md R160–R172). -/

namespace Sys2Proof.Machine

/-- ADD: the pre-wrap sum exceeds 255 (R168). -/
def carryOut (a b : Byte) : Bool := decide (255 < a.toNat + b.toNat)

/-- SUB and SUBN for `p − q`: strictly `p > q`, so that equal operands give 0 (R169, R171, 90_conflicts.md C9). -/
def strictlyGreater (p q : Byte) : Bool := decide (q.toNat < p.toNat)

/-- SHR: the bit shifted out, bit 0 (R170). -/
def bitOutRight (a : Byte) : Bool := a.getLsbD 0

/-- SHL: the bit shifted out, bit 7 (R172). -/
def bitOutLeft (a : Byte) : Bool := a.getLsbD 7

/-- What a flag writes into VF. -/
def flagByte (f : Bool) : Byte := if f then 1#8 else 0#8

/-- `VF <- f`. -/
def State.setFlag (f : Bool) (s : State) : State := s.setReg vf (flagByte f)

/-- `V[x] <- r`, then `VF <- f`: the flag is written last, so that it is what VF holds when `x = F` (R160). -/
def State.setRegFlag (x : Nibble) (r : Byte) (f : Bool) (s : State) : State := (s.setReg x r).setFlag f

/-- `(p − q + 256) mod 256` (R161). -/
def wrapSub (p q : Byte) : Byte := BitVec.ofNat 8 ((p.toNat + 256 - q.toNat) % 256)

/-- `(p + q) mod 256` (R161). -/
def wrapAdd (p q : Byte) : Byte := BitVec.ofNat 8 ((p.toNat + q.toNat) % 256)

end Sys2Proof.Machine
end

