-- ==== Sys2Proof/Machine/Cycle.lean ====
section
/-! DEFINITION. The parts of the cycle around execute (40_cycle.md): the host's key write before it, fetch,
advance, and the timer tick after it. -/

namespace Sys2Proof.Machine

/-- The host's write of KEY before this cycle, if it makes one (10_state.md R51). -/
def State.hostKey (s : State) : State := s.setKey (s.input.keyWrite.getD s.key)

/-- Step 1, fetch: two bytes at PC and PC + 1, combined big-endian into OP (R121). -/
def State.fetch (s : State) : State :=
  let (hi, s₁) := s.memRead s.pc.toNat
  let (lo, s₂) := s₁.memRead (s.pc.toNat + 1)
  s₂.setOp (wordOfBytes hi lo)

/-- What the cycle does before execute: host write, fetch, advance (R120–R122). -/
def State.beginCycle (s : State) : State := s.hostKey.fetch.advance

/-- A timer's count after the tick step: one lower, never below zero (R126). -/
def countDown (tick : Bool) (b : Byte) : Byte := if b = 0 then 0 else if tick then b - 1 else b

/-- Step 4, the timer tick (R126). -/
def State.timerTick (tick : Bool) (s : State) : State :=
  (s.setDt (countDown tick s.dt)).setSt (countDown tick s.st)

/-- What the cycle does after execute: the tick, and on to the next cycle's inputs (R126, R127). -/
def State.endCycle (s : State) : State := (s.timerTick s.input.tick).nextInput

/-- Store an opcode, numbered as decodeTableWord numbers it, where the next fetch reads. -/
def State.placeOpcode (s : State) (nbits w : Nat) : State :=
  let op : Word := BitVec.ofNat 16 (w % 2 ^ nbits)
  (s.poke s.pc.toNat (highByte op)).poke (s.pc.toNat + 1) (lowByte op)

end Sys2Proof.Machine
end

