-- ==== Sys2Proof/Machine/Alu.lean ====
section
/-! DEFINITION. Register arithmetic and logic (42_register_alu.md). None of these changes PC. -/

namespace Sys2Proof.Machine

/-- LD Vx, kk (R162). -/
def execLdImm (x : Nibble) (kk : Byte) (s : State) : Host.Outcome State Fault Refusal :=
  .next (s.setReg x kk)

/-- ADD Vx, kk: no flag (R163). -/
def execAddImm (x : Nibble) (kk : Byte) (s : State) : Host.Outcome State Fault Refusal :=
  .next (s.setReg x (wrapAdd (s.reg x) kk))

/-- LD Vx, Vy (R164). -/
def execLdReg (x y : Nibble) (s : State) : Host.Outcome State Fault Refusal :=
  .next (s.setReg x (s.reg y))

/-- OR Vx, Vy (R165). -/
def execOrReg (x y : Nibble) (s : State) : Host.Outcome State Fault Refusal :=
  .next (s.setReg x (s.reg x ||| s.reg y))

/-- AND Vx, Vy (R166). -/
def execAndReg (x y : Nibble) (s : State) : Host.Outcome State Fault Refusal :=
  .next (s.setReg x (s.reg x &&& s.reg y))

/-- XOR Vx, Vy (R167). -/
def execXorReg (x y : Nibble) (s : State) : Host.Outcome State Fault Refusal :=
  .next (s.setReg x (s.reg x ^^^ s.reg y))

/-- ADD Vx, Vy (R168). -/
def execAddReg (x y : Nibble) (s : State) : Host.Outcome State Fault Refusal :=
  let a := s.reg x
  let b := s.reg y
  .next ((s.noteVfArg2 x y).setRegFlag x (wrapAdd a b) (carryOut a b))

/-- SUB Vx, Vy (R169). -/
def execSubReg (x y : Nibble) (s : State) : Host.Outcome State Fault Refusal :=
  let a := s.reg x
  let b := s.reg y
  .next ((s.noteVfArg2 x y).setRegFlag x (wrapSub a b) (strictlyGreater a b))

/-- SHR Vx: V[y] is neither read nor written (R170). -/
def execShr (x _y : Nibble) (s : State) : Host.Outcome State Fault Refusal :=
  let a := s.reg x
  .next ((s.noteVfArg1 x).setRegFlag x (a >>> 1) (bitOutRight a))

/-- SUBN Vx, Vy (R171). -/
def execSubn (x y : Nibble) (s : State) : Host.Outcome State Fault Refusal :=
  let a := s.reg x
  let b := s.reg y
  .next ((s.noteVfArg2 x y).setRegFlag x (wrapSub b a) (strictlyGreater b a))

/-- SHL Vx: V[y] is not read (R172). -/
def execShl (x _y : Nibble) (s : State) : Host.Outcome State Fault Refusal :=
  let a := s.reg x
  .next ((s.noteVfArg1 x).setRegFlag x (a <<< 1) (bitOutLeft a))

/-- RND Vx, kk: this cycle's random byte masked (R173). -/
def execRnd (x : Nibble) (kk : Byte) (s : State) : Host.Outcome State Fault Refusal :=
  .next (s.setReg x (s.input.rnd &&& kk))

end Sys2Proof.Machine
end

