-- ==== Sys2Proof/Machine/ControlFlow.lean ====
section
/-! DEFINITION. Control flow (41_control_flow.md): SYS and the no-op handler, JP, CALL, RET, JP V0. On entry PC
holds the advanced value (R123). -/

namespace Sys2Proof.Machine

/-- The no-op handler (R140). -/
def noOp (s : State) : State := s.event .unmapped

/-- SYS nnn: the no-op handler; `nnn` is ignored (R140). -/
def execSys (_nnn : Addr) (s : State) : Host.Outcome State Fault Refusal := .next (noOp s)

/-- An opcode of family 8, E or F that no handler is mapped to: the no-op handler (R140). -/
def execUnmapped (_op : Word) (s : State) : Host.Outcome State Fault Refusal := .next (noOp s)

/-- JP nnn (R141). -/
def execJp (nnn : Addr) (s : State) : Host.Outcome State Fault Refusal := .next (s.setPc (zextAddr nnn))

/-- RET (R142, R143). -/
def execRet (dc : Byte) (s : State) : Host.Outcome State Fault Refusal :=
  .next (s.noteCanon (dc != 0x0E#8)).popPc

/-- CALL nnn: push the advanced PC, then jump, whether or not the push was dropped (R144–R146). -/
def execCall (nnn : Addr) (s : State) : Host.Outcome State Fault Refusal :=
  .next ((s.push s.pc).setPc (zextAddr nnn))

/-- JP V0, nnn (R147). -/
def execJpV0 (nnn : Addr) (s : State) : Host.Outcome State Fault Refusal :=
  .next (s.setPc (zextAddr nnn + zextByte (s.reg 0)))

end Sys2Proof.Machine
end

