-- ==== Sys2Proof/Machine/Display.lean ====
section
/-! DEFINITION. Display and sprites (44_sprite_display.md). None of these changes PC. -/

namespace Sys2Proof.Machine

/-- CLS (R220). -/
def execCls (dc : Byte) (s : State) : Host.Outcome State Fault Refusal :=
  .next ((s.noteCanon (dc != 0x0E#8)).setFb blankFb)

/-- A draw in progress: the frame buffer, the collision `c` so far, and whether a set bit was clipped. -/
structure Drawing where
  fb : FrameBuffer
  hit : Bool
  clipped : Bool
  deriving DecidableEq, Repr

/-- One sprite bit at column `px`, row `py` (R221, R224, R225): a set bit flips a visible pixel, colliding if
it was on, and is clipped past the right or bottom edge. -/
def drawBit (bit : Bool) (px py : Nat) (d : Drawing) : Drawing :=
  if bit then
    if px < 64 ∧ py < 32 then
      { d with fb := flipPixel d.fb px py, hit := d.hit || pixelAt d.fb px py }
    else { d with clipped := true }
  else d

/-- One sprite row: bit 7 is the leftmost pixel, at column `x0` (R222). -/
def drawRow (row : Byte) (x0 py : Nat) (d : Drawing) : Drawing :=
  (List.range 8).foldl (fun d b => drawBit (row.getLsbD (7 - b)) (x0 + b) py d) d

/-- The sprite's rows from `py` downwards (R221). -/
def drawRows : List Byte → Nat → Nat → Drawing → Drawing
  | [], _, _, d => d
  | row :: rows, x0, py, d => drawRows rows x0 (py + 1) (drawRow row x0 py d)

/-- DRW Vx, Vy, n: the start position wraps (R223), all n bytes are read, clipped rows included (R228), and VF
is written after the pixels (R227). A draw writes no memory, so reading the rows first is the same as reading
each before it is drawn (log 10). -/
def execDrw (x y n : Nibble) (s : State) : Host.Outcome State Fault Refusal :=
  let x0 := (s.reg x).toNat % 64
  let y0 := (s.reg y).toNat % 32
  let (rows, s₁) := (s.noteVfArg2 x y).readBlock n.toNat s.base
  let d := drawRows rows x0 y0 ⟨s₁.fb, false, false⟩
  .next (((s₁.setFb d.fb).eventIf d.clipped .clip).setFlag d.hit)

/-- LD F, Vx (R230). -/
def execLdF (x : Nibble) (s : State) : Host.Outcome State Fault Refusal :=
  let v := s.reg x
  .next ((s.noteIndex v).setI (glyphAddr (lowIndex v)))

end Sys2Proof.Machine
end

