-- ==== Sys2Proof/Machine/MemTimerKey.lean ====
section
/-! DEFINITION. Index, memory block, timer and key instructions (45_memory_timer_key.md). Only the key wait
changes PC. -/

namespace Sys2Proof.Machine

/-- LD I, nnn (R240). -/
def execLdI (nnn : Addr) (s : State) : Host.Outcome State Fault Refusal := .next (s.setI (zextAddr nnn))

/-- ADD I, Vx: 16 bits, no flag (R241). -/
def execAddI (x : Nibble) (s : State) : Host.Outcome State Fault Refusal :=
  .next (s.setI (s.i + zextByte (s.reg x)))

/-- LD Vx, DT: DT before this cycle's tick (R242, 40_cycle.md R128). -/
def execLdVxDt (x : Nibble) (s : State) : Host.Outcome State Fault Refusal := .next (s.setReg x s.dt)

/-- LD DT, Vx (R243). -/
def execLdDtVx (x : Nibble) (s : State) : Host.Outcome State Fault Refusal := .next (s.setDt (s.reg x))

/-- LD ST, Vx (R244). -/
def execLdStVx (x : Nibble) (s : State) : Host.Outcome State Fault Refusal := .next (s.setSt (s.reg x))

/-- LD B, Vx: the three digits at I, I + 1, I + 2 (R246). -/
def execLdB (x : Nibble) (s : State) : Host.Outcome State Fault Refusal :=
  .next (s.writeBlock (bcdDigits (s.reg x)) s.base)

/-- LD [I], Vx: V0..Vx at I, I + 1, …; I is unchanged (R245, R248). -/
def execStoreRegs (x : Nibble) (s : State) : Host.Outcome State Fault Refusal :=
  .next (s.writeBlock (s.regsUpTo x) s.base)

/-- LD Vx, [I]: V0..Vx from I, I + 1, …; I is unchanged (R245, R250). -/
def execLoadRegs (x : Nibble) (s : State) : Host.Outcome State Fault Refusal :=
  let (bytes, s₁) := s.readBlock (x.toNat + 1) s.base
  .next (s₁.setRegs 0 bytes)

/-- LD Vx, K: the lowest pressed key, or, while none is pressed, PC back at the instruction (R260–R262). -/
def execLdVxK (x : Nibble) (s : State) : Host.Outcome State Fault Refusal :=
  .next (match lowestKey s.key with
    | some k => s.setReg x (BitVec.ofNat 8 k)
    | none => s.setPc (s.pc - 2))

end Sys2Proof.Machine
end

