-- ==== Sys2Proof/Machine/Skip.lean ====
section
/-! DEFINITION. Skip and compare (43_skip_compare.md). -/

namespace Sys2Proof.Machine

/-- The skip: 2 more on the advanced PC when the condition holds (R200). -/
def State.skipIf (c : Bool) (s : State) : State := s.setPc (if c then s.pc + 2 else s.pc)

/-- SE Vx, kk (R201). -/
def execSeImm (x : Nibble) (kk : Byte) (s : State) : Host.Outcome State Fault Refusal :=
  .next (s.skipIf (s.reg x == kk))

/-- SNE Vx, kk (R202). -/
def execSneImm (x : Nibble) (kk : Byte) (s : State) : Host.Outcome State Fault Refusal :=
  .next (s.skipIf (s.reg x != kk))

/-- SE Vx, Vy (R203). -/
def execSeReg (x y n : Nibble) (s : State) : Host.Outcome State Fault Refusal :=
  .next ((s.noteCanon (n != 0x0#4)).skipIf (s.reg x == s.reg y))

/-- SNE Vx, Vy (R204). -/
def execSneReg (x y n : Nibble) (s : State) : Host.Outcome State Fault Refusal :=
  .next ((s.noteCanon (n != 0x0#4)).skipIf (s.reg x != s.reg y))

/-- SKP Vx (R205, R207). -/
def execSkp (x m : Nibble) (s : State) : Host.Outcome State Fault Refusal :=
  let v := s.reg x
  .next (((s.noteCanon (m != 0x9#4)).noteIndex v).skipIf (s.pressed (lowIndex v)))

/-- SKNP Vx (R206, R207). -/
def execSknp (x m : Nibble) (s : State) : Host.Outcome State Fault Refusal :=
  let v := s.reg x
  .next (((s.noteCanon (m != 0xA#4)).noteIndex v).skipIf (!s.pressed (lowIndex v)))

end Sys2Proof.Machine
end

