-- ==== Sys2Proof/Machine/Step.lean ====
section
/-! DEFINITION. One step: one whole cycle (40_cycle.md R120). -/

namespace Sys2Proof.Machine

/-- One cycle: host key write, fetch, advance; decode and execute; timer tick (R120). -/
def step (s : State) : Host.Outcome State Fault Refusal :=
  match exec (decodeWord s.beginCycle.op) s.beginCycle with
  | .next t => .next t.endCycle
  | .fault r => .fault r
  | .refused r => .refused r

/-- The state with an opcode stored where the next fetch reads (log 11). -/
def State.withFetchWord (s : State) (nbits w : Nat) : State := s.placeOpcode nbits w

end Sys2Proof.Machine
end

