-- ==== Sys2Proof/Machine/Ports.lean ====
section
/-! DEFINITION. The block's ports (10_state.md R47–R55, 40_cycle.md R130, 60_exceptions.md R290,
70_reset_and_hazards.md R305): what the host can do between cycles, and one clock of all ports together. -/

namespace Sys2Proof.Machine

/-- The load port: one byte written into MEM (R50). -/
def State.hostLoad (a : Addr) (b : Byte) (s : State) : State := s.poke a.toNat b

/-- The whole KEY array written (R51). -/
def State.hostSetKey (w : Word) (s : State) : State := s.setKey w

/-- `rst`: every element of the machine to its reset value, whatever it held (R54, R300). The host's own inputs
are not the machine's, and stay (log 2). -/
def State.hostReset (s : State) : State :=
  { State.reset with inputs := s.inputs, cycleNo := s.cycleNo }

/-- `sound_on` (R52). -/
def State.soundOn (s : State) : Bool := s.st != 0

/-- `fb_rdata` for `fb_raddr = a`: the pixel at column `a mod 64`, row `a / 64` (R53). -/
def State.fbRead (s : State) (a : BitVec 11) : Bool := pixelAt s.fb (a.toNat % 64) (a.toNat / 64)

/-- The input ports of the block (R47). -/
structure Ports where
  /-- `rst` -/
  rst : Bool
  /-- `cycle` -/
  cycle : Bool
  /-- `tick`, sampled by a cycle (R48) -/
  tick : Bool
  /-- `rnd`, read by a cycle (R49) -/
  rnd : Byte
  /-- `mem_we`, `mem_waddr`, `mem_wdata` (R50) -/
  memWrite : Option (Addr × Byte)
  /-- `key_we`, `key_wdata` (R51) -/
  keyWrite : Option Word
  deriving DecidableEq, Repr

/-- The host's writes of one clock (R50, R51). They reach different elements, so their order does not show. -/
def State.hostWrites (p : Ports) (s : State) : State :=
  let s₁ := match p.memWrite with
    | some (a, b) => s.hostLoad a b
    | none => s
  match p.keyWrite with
  | some w => s₁.hostSetKey w
  | none => s₁

/-- The `tick` and `rnd` ports as the inputs of the next cycle. -/
def State.present (tick : Bool) (rnd : Byte) (s : State) : State :=
  { s with inputs := ⟨tick, rnd, none⟩ :: s.inputs }

/-- One clock of the block: `rst` wins over everything (R130); else the host's writes, then the cycle if one is
requested (R51, R273), with the given `tick` and `rnd`. A clock that requests no cycle reads neither. -/
def portStep (p : Ports) (s : State) : Host.Outcome State Fault Refusal :=
  if p.rst then .next s.hostReset
  else
    let s₁ := s.hostWrites p
    if p.cycle then step (s₁.present p.tick p.rnd)
    else .next s₁

/-- The bytes of an image written at `a`, `a + 1`, … through the load port. -/
def State.loadBytes : List Byte → Nat → State → State
  | [], _, s => s
  | b :: bs, a, s => State.loadBytes bs (a + 1) (s.hostLoad (BitVec.ofNat 12 a) b)

/-- ROM load: byte `j` goes to `0x200 + j`; an image of more than 4096 − 512 = 3584 bytes is refused whole (R305, R306). -/
def State.loadRom (image : List Byte) (s : State) : Option State :=
  if image.length ≤ 3584 then some (s.loadBytes image 0x200) else none

end Sys2Proof.Machine
end

