-- ==== Sys2Proof/Safety.lean ====
section
/-! DEFINITION. The terms claims are stated in: the elements of the state and what may change, the events a
step records, a run free of decided behaviour, the end of a run, and the sprite as a picture. -/

namespace Sys2Proof.Machine

/-! ### Frames -/

/-- The elements of the state, each register, stack entry, memory byte and pixel by itself. -/
inductive Element where
  | reg (x : Nibble)
  | i
  | pc
  | sp
  | entry (k : Fin 16)
  | dt
  | st
  | byte (a : Fin 4096)
  | pixel (x : Fin 64) (y : Fin 32)
  | key
  | evt
  | op
  | inputs
  | cycleNo
  deriving DecidableEq, Repr

/-- The element has the same value in both states. Memory is compared through the model's read of one byte. -/
def Element.same (e : Element) (s t : State) : Prop :=
  match e with
  | .reg x => t.reg x = s.reg x
  | .i => t.i = s.i
  | .pc => t.pc = s.pc
  | .sp => t.sp = s.sp
  | .entry k => t.stack[k] = s.stack[k]
  | .dt => t.dt = s.dt
  | .st => t.st = s.st
  | .byte a => t.peek a = s.peek a
  | .pixel x y => pixelAt t.fb x y = pixelAt s.fb x y
  | .key => t.key = s.key
  | .evt => t.evt = s.evt
  | .op => t.op = s.op
  | .inputs => t.inputs = s.inputs
  | .cycleNo => t.cycleNo = s.cycleNo

/-- From `s` to `t` nothing changes outside `w`: every element that is not in `w` is the same. -/
def OnlyChanges (w : Set Element) (s t : State) : Prop := ∀ e, e ∉ w → e.same s t

/-- The byte that an effective address reaches (20_memory.md R63). -/
def byteAt (a : Nat) : Element := .byte (Fin.ofNat 4096 a)

/-- The bytes of a block: `base`, `base + 1`, …, `n` of them, each reduced (R63). -/
def blockBytes (base n : Nat) : Set Element := fun e => ∃ k, k < n ∧ e = byteAt (base + k)

/-- Every pixel. -/
def allPixels : Set Element := fun e => ∃ x y, e = .pixel x y

/-- The registers V0 to Vx. -/
def regsTo (x : Nibble) : Set Element := fun e => ∃ r : Nibble, r ≤ x ∧ e = .reg r

/-! ### What each instruction may write and read (10_state.md R22, R25–R29, R36, R39, 20_memory.md R61) -/

/-- The elements an instruction may write, executed in `s`: its registers by R22, and EVT where it can record
an event. -/
def writes (i : Instr) (s : State) : Set Element :=
  match i with
  | .sys _ | .unmapped _ => {.evt}
  | .jp _ | .jpV0 _ | .seImm _ _ | .sneImm _ _ => {.pc}
  | .ret _ => {.pc, .sp, .evt}
  | .call _ => fun e => e = .pc ∨ e = .sp ∨ e = .evt ∨ ∃ h : s.sp.val < 16, e = .entry ⟨s.sp.val, h⟩
  | .seReg _ _ _ | .sneReg _ _ _ | .skp _ _ | .sknp _ _ => {.pc, .evt}
  | .ldImm x _ | .addImm x _ | .ldReg x _ | .orReg x _ | .andReg x _ | .xorReg x _ | .rnd x _ | .ldVxDt x => {.reg x}
  | .addReg x _ | .subReg x _ | .subn x _ | .shr x _ | .shl x _ => {.reg x, .reg vf, .evt}
  | .cls _ => allPixels ∪ {.evt}
  | .drw _ _ _ => allPixels ∪ {.reg vf, .evt}
  | .ldI _ | .addI _ => {.i}
  | .ldF _ => {.i, .evt}
  | .ldDtVx _ => {.dt}
  | .ldStVx _ => {.st}
  | .ldB _ => blockBytes s.i.toNat 3 ∪ {.evt}
  | .storeRegs x => blockBytes s.i.toNat (x.toNat + 1) ∪ {.evt}
  | .loadRegs x => regsTo x ∪ {.evt}
  | .ldVxK x => {.reg x, .pc}

/-- The general registers an instruction reads (R22). SHR and SHL ignore their y field. -/
def readsReg (i : Instr) (r : Nibble) : Prop :=
  match i with
  | .seImm x _ | .sneImm x _ | .addImm x _ | .shr x _ | .shl x _ | .skp x _ | .sknp x _ | .ldDtVx x | .ldStVx x
  | .addI x | .ldF x | .ldB x => r = x
  | .seReg x y _ | .sneReg x y _ | .orReg x y | .andReg x y | .xorReg x y | .addReg x y | .subReg x y | .subn x y
  | .drw x y _ => r = x ∨ r = y
  | .ldReg _ y => r = y
  | .jpV0 _ => r = 0
  | .storeRegs x => r ≤ x
  | .sys _ | .unmapped _ | .cls _ | .ret _ | .jp _ | .call _ | .ldImm _ _ | .ldI _ | .rnd _ _ | .ldVxDt _
  | .ldVxK _ | .loadRegs _ => False

/-- Execute a list of instructions one after the other, with nothing between them. -/
def execAll : List Instr → State → Host.Outcome State Fault Refusal
  | [], s => .next s
  | i :: is, s =>
    match exec i s with
    | .next t => execAll is t
    | .fault r => .fault r
    | .refused r => .refused r

/-! ### Events -/

/-- A bit of EVT (10_state.md R40). -/
def State.evtBit (s : State) (e : Event) : Bool := s.evt.getLsbD e.bit

/-- From `s` to `t` exactly the events of `p` are recorded: their bits end set, and every other bit is as it
was (R41). -/
def Records (p : Event → Prop) (s t : State) : Prop :=
  ∀ e, t.evtBit e = true ↔ (s.evtBit e = true ∨ p e)

/-- A run that ends here relied on no decided behaviour: the premise `EVT = 0` (R41). -/
def State.clean (s : State) : Bool := s.evt == 0

/-- At most one key is pressed, the premise of 92_eei_decisions.md D18. -/
def State.oneKey (s : State) : Bool := (List.range 16).countP (fun k => s.key.getLsbD k) ≤ 1

/-! ### The invariant -/

/-- Memory is in canonical form. It is what a step needs and keeps. -/
def State.Inv (s : State) : Prop := s.mem.wf = true

/-! ### The end of a run (70_reset_and_hazards.md R311) -/

/-- The opcode the next cycle fetches. -/
def State.nextOpcode (s : State) : Word := wordOfBytes (s.peek s.pc.toNat) (s.peek (s.pc.toNat + 1))

/-- The next instruction is a jump to itself: the run has ended (R311). -/
def State.ended (s : State) : Bool :=
  match decodeWord s.nextOpcode with
  | .jp nnn => zextAddr nnn == s.pc && decide (s.pc.toNat < 0x1000)
  | _ => false

/-! ### The sprite as a picture (44_sprite_display.md R222, R224) -/

/-- The sprite, drawn from column `x0` and row `y0`, has a set bit at column `x`, row `y` (on screen or not). -/
def spriteBit (rows : List Byte) (x0 y0 x y : Nat) : Bool :=
  decide (y0 ≤ y ∧ y < y0 + rows.length ∧ x0 ≤ x ∧ x < x0 + 8) &&
    (rows.getD (y - y0) 0x00#8).getLsbD (7 - (x - x0))

/-- The column and row are on the screen. -/
def onScreen (x y : Nat) : Prop := x < 64 ∧ y < 32

/-- The `n` sprite bytes at I. -/
def State.sprite (s : State) (n : Nibble) : List Byte :=
  (List.range n.toNat).map fun r => s.peek (s.i.toNat + r)

/-- The columns and rows that one draw's sprite bits can have. -/
def State.spriteAt (s : State) (x y n : Nibble) (px py : Nat) : Bool :=
  spriteBit (s.sprite n) ((s.reg x).toNat % 64) ((s.reg y).toNat % 32) px py

end Sys2Proof.Machine
end

