-- ==== Sys2Proof/Certificates/Slice0/Obligations.lean ====
section
/-! DEFINITION. The statements about the model, from the spec's numbered rules. `x`, `y`, `n`, `kk`, `nnn` range
over every value the encoding admits and `s` over every state; where a clause rests on a decision of
spec/92_eei_decisions.md (the spec's own choice, not its source's), the docstring names it. -/

open Sys2Proof Sys2Proof.Machine

/-! ### Encoding and decoding -/

/-- Decoding the opcode of a well-formed instruction gives the instruction back, every operand at every value
(30_encoding.md R92–R101, R105; the selectors of families 0 and E are decision D8). That the ignored bits are operands
of the instruction is the model's choice (log 6). -/
def Obligations.DecodeOfEncodeIsTheInstruction : Prop :=
  ∀ i : Instr, i.wellFormed = true → decodeWord (encode i) = i

/-- Every opcode decodes (R102, R103) to a well-formed instruction whose encoding is the opcode. That no bit is
dropped and no two opcodes share an instruction is the MODEL'S choice: its instruction keeps the bits the handler
ignores (log 6), while by R98 several opcodes share one handler. -/
def Obligations.EncodeOfDecodeIsTheOpcode : Prop :=
  ∀ op : Word, (decodeWord op).wellFormed = true ∧ encode (decodeWord op) = op

/-- The opcode table read by priority (R104): the rows of priority 0 are pairwise disjoint, the first matching
row names the instruction that decode gives, and SYS and the catch-all execute the same. -/
def Obligations.DecodeFollowsTheOpcodeTable : Prop :=
  (∀ op : Word, opcodeRows0.Pairwise (fun r r' => ¬ (r.accepts op = true ∧ r'.accepts op = true))) ∧
  (∀ op : Word, tableMnemonic op = some (decodeWord op).mnemonic) ∧
  (∀ (nnn : Addr) (op : Word) (s : State), exec (.sys nnn) s = exec (.unmapped op) s)

/-- A step records NONCANON exactly when it fetches an opcode whose ignored bits are not canonical (R107,
decisions D7, D8, D29). -/
def Obligations.StepRecordsNonCanonicalOpcodes : Prop :=
  ∀ s t : State, step s = .next t →
    let op := s.nextOpcode.toNat
    (t.evtBit .nonCanon = true ↔ s.evtBit .nonCanon = true ∨
      (op / 4096 = 0 ∧ op % 16 = 0 ∧ op ≠ 0x00E0) ∨ (op / 4096 = 0 ∧ op % 16 = 0xE ∧ op ≠ 0x00EE) ∨
      (op / 4096 = 5 ∧ op % 16 ≠ 0) ∨ (op / 4096 = 9 ∧ op % 16 ≠ 0) ∨
      (op / 4096 = 0xE ∧ op % 16 = 0xE ∧ op / 16 % 16 ≠ 9) ∨
      (op / 4096 = 0xE ∧ op % 16 = 1 ∧ op / 16 % 16 ≠ 0xA))

/-- A few opcodes written out from the encoding table (R105), read from their bytes (R64). -/
def Obligations.SampleOpcodesDecode : Prop :=
  decodeBytes [0x6A, 0x02, 0x60, 0xFF] = .ok (.ldImm 0xA 0x02, [0x60, 0xFF]) ∧
  decodeBytes [0x81, 0x26] = .ok (.shr 1 2, []) ∧
  decodeBytes [0xD0, 0x15] = .ok (.drw 0 1 5, []) ∧
  decodeBytes [0xE3, 0xA1] = .ok (.sknp 3 0xA, []) ∧
  decodeBytes [0xF3, 0x0A] = .ok (.ldVxK 3, []) ∧
  decodeBytes [0x2F, 0xFE] = .ok (.call 0xFFE, []) ∧
  decodeBytes [0x01, 0x23] = .ok (.sys 0x123, []) ∧
  decodeBytes [0x00, 0xE0] = .ok (.cls 0x0E, [])

/-! ### The cycle -/

/-- A step executes the instruction decoded from the two bytes at PC, between the cycle's beginning and its
end (R120, R123). -/
def Obligations.StepRunsTheDecodedInstruction : Prop :=
  ∀ (s t : State) (i : Instr),
    decodeWord (wordOfBytes (s.peek s.pc.toNat) (s.peek (s.pc.toNat + 1))) = i →
    exec i s.beginCycle = .next t → step s = .next t.endCycle

/-- What a step does before execute: the host's KEY write, the big-endian fetch of the bytes at PC and PC + 1
into OP, the advance modulo 2^16, and ADDR_WRAP when a fetch address is 4096 or more; nothing else (R64, R120,
R121, R122; the reduction is decision D2, PC's width D3, the event D7, the order of the host's write D26). -/
def Obligations.FetchAndAdvance : Prop :=
  ∀ s : State,
    s.beginCycle.op.toNat = 256 * (s.peek s.pc.toNat).toNat + (s.peek (s.pc.toNat + 1)).toNat ∧
    s.beginCycle.pc.toNat = (s.pc.toNat + 2) % 65536 ∧
    s.beginCycle.key = s.input.keyWrite.getD s.key ∧
    Records (fun e => e = .addrWrap ∧ (4096 ≤ s.pc.toNat ∨ 4096 ≤ s.pc.toNat + 1)) s s.beginCycle ∧
    OnlyChanges {.op, .pc, .key, .evt} s s.beginCycle

/-- DT over a whole step: what execute leaves in it (V[x] for Fx15, else DT), one lower when a tick boundary has
elapsed, never below zero; and Fx07 reads DT before that decrement (R126, R128; at most one decrement a cycle is
decision D20). -/
def Obligations.DelayTimerOverAStep : Prop :=
  ∀ s : State, ∃ t, step s = .next t ∧
    (∀ x, decodeWord s.nextOpcode = .ldDtVx x → t.dt.toNat = (s.reg x).toNat - s.input.tick.toNat) ∧
    ((∀ x, decodeWord s.nextOpcode ≠ .ldDtVx x) → t.dt.toNat = s.dt.toNat - s.input.tick.toNat) ∧
    (∀ x, decodeWord s.nextOpcode = .ldVxDt x → t.reg x = s.dt)

/-- ST over a whole step, in the same way (R29, R126; decision D20). -/
def Obligations.SoundTimerOverAStep : Prop :=
  ∀ s : State, ∃ t, step s = .next t ∧
    (∀ x, decodeWord s.nextOpcode = .ldStVx x → t.st.toNat = (s.reg x).toNat - s.input.tick.toNat) ∧
    ((∀ x, decodeWord s.nextOpcode ≠ .ldStVx x) → t.st.toNat = s.st.toNat - s.input.tick.toNat)

/-- The end of a step changes the timers and moves to the next inputs, and nothing else (R126, R127). The two
input fields are the model's own (log 1, log 2). -/
def Obligations.EndOfCycle : Prop :=
  ∀ s : State,
    s.endCycle.dt.toNat = s.dt.toNat - s.input.tick.toNat ∧
    s.endCycle.st.toNat = s.st.toNat - s.input.tick.toNat ∧
    s.endCycle.inputs = s.inputs.tail ∧ s.endCycle.cycleNo = s.cycleNo + 1 ∧
    OnlyChanges {.dt, .st, .inputs, .cycleNo} s s.endCycle

/-! ### The machine as a whole -/

/-- No instruction faults and no condition stops the core (R270): every instruction, and every step, has a next
state. -/
def Obligations.NoInstructionFaultsAndNoStepStops : Prop :=
  (∀ (i : Instr) (s : State), ∃ t, exec i s = .next t) ∧ (∀ s : State, ∃ t, step s = .next t)

/-- Memory stays in canonical form: addresses inside MEM and strictly rising, no entry equal to what an unlisted
address reads as (R30; the form is the model's own, log 4). -/
def Obligations.StepKeepsMemoryCanonical : Prop :=
  ∀ s t : State, s.Inv → step s = .next t → t.Inv

/-- The reset memory is in canonical form (log 4). -/
def Obligations.ResetMemoryIsCanonical : Prop := State.reset.Inv

/-- EVT is sticky and without influence (R41): a step and the host's writes keep every set bit and `rst` clears
EVT; and a step from the same state with another EVT ends in the same state but for EVT. -/
def Obligations.EvtIsStickyAndWithoutInfluence : Prop :=
  (∀ (s t : State) (e : Event), step s = .next t → s.evtBit e = true → t.evtBit e = true) ∧
  (∀ (p : Ports) (s t : State) (e : Event), p.rst = false → portStep p s = .next t →
    s.evtBit e = true → t.evtBit e = true) ∧
  (∀ s : State, s.hostReset.evt = 0) ∧
  (∀ (s t : State) (b : Byte), step s = .next t →
    ∃ t', step { s with evt := b } = .next t' ∧ { t' with evt := t.evt } = t)

/-- An instruction writes only the elements its row of the register table and of the memory table names (R22,
R61; R25, R27, R28, R29, R36 for the other elements): everything else is unchanged, every other byte of memory
and every other pixel included. -/
def Obligations.InstructionsWriteOnlyTheirElements : Prop :=
  ∀ (i : Instr) (s t : State), exec i s = .next t → OnlyChanges (writes i s) s t

/-- An instruction reads only the general registers its row of the register table names (R22): writing any
other register beforehand changes that register alone in the result, and there only to what was written. -/
def Obligations.InstructionsReadOnlyTheirRegisters : Prop :=
  ∀ (i : Instr) (s t : State) (r : Nibble) (b : Byte), ¬ readsReg i r → exec i s = .next t →
    ∃ t', exec i (s.setReg r b) = .next t' ∧ OnlyChanges {.reg r} t t' ∧
      (t'.reg r = t.reg r ∨ (t'.reg r = b ∧ t.reg r = s.reg r))

/-- A handler changes PC in exactly one of the listed ways (R124). -/
def Obligations.HandlersChangePcOnlyAsListed : Prop :=
  ∀ (i : Instr) (s t : State), exec i s = .next t →
    match i with
    | .jp nnn | .call nnn => t.pc.toNat = nnn.toNat
    | .jpV0 nnn => t.pc.toNat = nnn.toNat + (s.reg 0).toNat
    | .ret _ => t.pc = s.pc ∨ ∃ k : Fin 16, t.pc = s.stack[k] ∧ s.sp.val = k.val + 1
    | .seImm _ _ | .sneImm _ _ | .seReg _ _ _ | .sneReg _ _ _ | .skp _ _ | .sknp _ _ =>
      t.pc = s.pc ∨ t.pc.toNat = (s.pc.toNat + 2) % 65536
    | .ldVxK _ => t.pc = s.pc ∨ (s.key = 0 ∧ (t.pc.toNat + 2) % 65536 = s.pc.toNat)
    | _ => t.pc = s.pc

/-! ### Control flow -/

/-- JP nnn and JP V0, nnn: PC is the target, the sum kept in 16 bits, and nothing else changes (R141, R147;
that a target of 0x1000 or more is kept in PC is decision D3). -/
def Obligations.JumpsSetPcAlone : Prop :=
  ∀ (nnn : Addr) (s : State),
    (∃ t, exec (.jp nnn) s = .next t ∧ t.pc.toNat = nnn.toNat ∧ OnlyChanges {.pc} s t) ∧
    (∃ t, exec (.jpV0 nnn) s = .next t ∧ t.pc.toNat = nnn.toNat + (s.reg 0).toNat ∧ OnlyChanges {.pc} s t)

/-- RET pops the most recent return address into PC; on an empty stack it pops nothing and PC keeps the advanced
value (R142; the empty stack is decision D6, NONCANON D7 and D8). -/
def Obligations.RetPopsIntoPc : Prop :=
  ∀ (dc : Byte) (s : State), ∃ t, exec (.ret dc) s = .next t ∧
    (∀ k : Fin 16, s.sp.val = k.val + 1 → t.sp.val = k.val ∧ t.pc = s.stack[k]) ∧
    (s.sp.val = 0 → t.sp = s.sp ∧ t.pc = s.pc) ∧
    Records (fun e => (e = .stkUnf ∧ s.sp.val = 0) ∨ (e = .nonCanon ∧ dc ≠ 0x0E)) s t ∧
    OnlyChanges {.pc, .sp, .evt} s t

/-- CALL nnn pushes the advanced PC and jumps (R144, R145). On a full stack the push is dropped, STK_OVF is
recorded, and the jump is still taken: that policy is the spec's own choice (R146, decision D5; the event D7;
log 13). -/
def Obligations.CallPushesAndJumps : Prop :=
  ∀ (nnn : Addr) (s : State), ∃ t, exec (.call nnn) s = .next t ∧
    t.pc.toNat = nnn.toNat ∧
    (∀ k : Fin 16, s.sp.val = k.val → t.sp.val = k.val + 1 ∧ t.stack[k] = s.pc ∧
      OnlyChanges {.pc, .sp, .entry k} s t) ∧
    (s.sp.val = 16 → OnlyChanges {.pc, .evt} s t) ∧
    Records (fun e => e = .stkOvf ∧ s.sp.val = 16) s t

/-- A RET right after a CALL with room resumes at the CALL's advanced PC with SP as it was (R142, R144, R145). -/
def Obligations.RetUndoesCall : Prop :=
  ∀ (nnn : Addr) (dc : Byte) (s : State), s.sp.val < 16 → ∃ t u, exec (.call nnn) s = .next t ∧
    exec (.ret dc) t = .next u ∧ u.pc = s.pc ∧ u.sp = s.sp

/-- As many RETs as nested CALLs with room for all of them (sixteen from the empty stack) return to the advanced
PC of the first CALL, with SP as it was and nothing recorded (R142, R144, R145; 90_conflicts.md C6). -/
def Obligations.NestedCallsReturn : Prop :=
  ∀ (targets : List Addr) (s : State), targets ≠ [] → s.sp.val + targets.length ≤ 16 →
    ∃ u, execAll (targets.map .call ++ List.replicate targets.length (.ret 0x0E)) s = .next u ∧
      u.pc = s.pc ∧ u.sp = s.sp ∧ u.evt = s.evt

/-- SYS and every unmapped opcode leave every element but EVT as it is and record UNMAPPED (R103, R140; the bit is
decision D7, that SYS is the 35th instruction D30). -/
def Obligations.NoOpHandlerChangesNothing : Prop :=
  ∀ (nnn : Addr) (op : Word) (s : State),
    (∃ t, exec (.sys nnn) s = .next t ∧ Records (fun e => e = .unmapped) s t ∧ OnlyChanges {.evt} s t) ∧
    (∃ t, exec (.unmapped op) s = .next t ∧ Records (fun e => e = .unmapped) s t ∧ OnlyChanges {.evt} s t)

/-! ### Register arithmetic and logic -/

/-- LD Vx, kk and LD Vx, Vy write Vx and nothing else, V[F] like any other register (R162, R164). -/
def Obligations.LoadsOfARegister : Prop :=
  ∀ (x y : Nibble) (kk : Byte) (s : State),
    (∃ t, exec (.ldImm x kk) s = .next t ∧ t.reg x = kk ∧ OnlyChanges {.reg x} s t) ∧
    (∃ t, exec (.ldReg x y) s = .next t ∧ t.reg x = s.reg y ∧ OnlyChanges {.reg x} s t)

/-- ADD Vx, kk wraps modulo 256 and sets no flag (R163). -/
def Obligations.AddImmediateWrapsWithoutFlag : Prop :=
  ∀ (x : Nibble) (kk : Byte) (s : State), ∃ t, exec (.addImm x kk) s = .next t ∧
    (t.reg x).toNat = ((s.reg x).toNat + kk.toNat) % 256 ∧ OnlyChanges {.reg x} s t

/-- OR, AND and XOR work bit by bit and set no flag (R165, R166, R167; that VF is unchanged is decision D11). -/
def Obligations.LogicIsBitwiseWithoutFlag : Prop :=
  ∀ (x y : Nibble) (s : State),
    (∃ t, exec (.orReg x y) s = .next t ∧ OnlyChanges {.reg x} s t ∧
      ∀ k, (t.reg x).getLsbD k = ((s.reg x).getLsbD k || (s.reg y).getLsbD k)) ∧
    (∃ t, exec (.andReg x y) s = .next t ∧ OnlyChanges {.reg x} s t ∧
      ∀ k, (t.reg x).getLsbD k = ((s.reg x).getLsbD k && (s.reg y).getLsbD k)) ∧
    (∃ t, exec (.xorReg x y) s = .next t ∧ OnlyChanges {.reg x} s t ∧
      ∀ k, (t.reg x).getLsbD k = ((s.reg x).getLsbD k ^^ (s.reg y).getLsbD k))

/-- ADD Vx, Vy: the sum modulo 256 in Vx, the carry of the pre-wrap sum in VF (R168). That the flag is written
last, so that VF holds it when x = F, is decision D10, that the operands are read first D9, and VF_ARG D7 (R160,
log 13). -/
def Obligations.AddSetsCarry : Prop :=
  ∀ (x y : Nibble) (s : State), ∃ t, exec (.addReg x y) s = .next t ∧
    (x ≠ 0xF → (t.reg x).toNat = ((s.reg x).toNat + (s.reg y).toNat) % 256) ∧
    (t.reg 0xF).toNat = (if 255 < (s.reg x).toNat + (s.reg y).toNat then 1 else 0) ∧
    Records (fun e => e = .vfArg ∧ (x = 0xF ∨ y = 0xF)) s t ∧
    OnlyChanges {.reg x, .reg 0xF, .evt} s t

/-- SUB Vx, Vy: the difference modulo 256 in Vx, and VF = 1 exactly when Vx > Vy (R169; that equal operands give 0
is 90_conflicts.md C9). That the flag is written last, so that VF holds it when x = F, is decision D10, that
the operands are read first D9, and VF_ARG D7 (R160, log 13). -/
def Obligations.SubSetsStrictFlag : Prop :=
  ∀ (x y : Nibble) (s : State), ∃ t, exec (.subReg x y) s = .next t ∧
    (x ≠ 0xF → ((t.reg x).toNat : Int) = ((s.reg x).toNat - (s.reg y).toNat : Int) % 256) ∧
    (t.reg 0xF).toNat = (if (s.reg y).toNat < (s.reg x).toNat then 1 else 0) ∧
    Records (fun e => e = .vfArg ∧ (x = 0xF ∨ y = 0xF)) s t ∧
    OnlyChanges {.reg x, .reg 0xF, .evt} s t

/-- SUBN Vx, Vy: Vy − Vx modulo 256 in Vx, and VF = 1 exactly when Vy > Vx (R171; that equal operands give 0 is
90_conflicts.md C9). That the flag is written last, so that VF holds it when x = F, is decision D10, that
the operands are read first D9, and VF_ARG D7 (R160, log 13). -/
def Obligations.SubnSetsStrictFlag : Prop :=
  ∀ (x y : Nibble) (s : State), ∃ t, exec (.subn x y) s = .next t ∧
    (x ≠ 0xF → ((t.reg x).toNat : Int) = ((s.reg y).toNat - (s.reg x).toNat : Int) % 256) ∧
    (t.reg 0xF).toNat = (if (s.reg x).toNat < (s.reg y).toNat then 1 else 0) ∧
    Records (fun e => e = .vfArg ∧ (x = 0xF ∨ y = 0xF)) s t ∧
    OnlyChanges {.reg x, .reg 0xF, .evt} s t

/-- SHR Vx halves Vx and leaves the bit shifted out in VF, whatever y is (R170). That the flag is written last, so
that VF holds it when x = F, is decision D10, that the operands are read first D9, and VF_ARG D7 (R160, log 13). -/
def Obligations.ShrMovesBitZeroToVf : Prop :=
  ∀ (x y : Nibble) (s : State), ∃ t, exec (.shr x y) s = .next t ∧
    (x ≠ 0xF → (t.reg x).toNat = (s.reg x).toNat / 2) ∧ (t.reg 0xF).toNat = (s.reg x).toNat % 2 ∧
    Records (fun e => e = .vfArg ∧ x = 0xF) s t ∧ OnlyChanges {.reg x, .reg 0xF, .evt} s t

/-- SHL Vx doubles Vx modulo 256 and leaves the bit shifted out in VF, whatever y is (R172). That the flag is
written last, so that VF holds it when x = F, is decision D10, that the operands are read first D9, and VF_ARG D7
(R160, log 13). -/
def Obligations.ShlMovesBitSevenToVf : Prop :=
  ∀ (x y : Nibble) (s : State), ∃ t, exec (.shl x y) s = .next t ∧
    (x ≠ 0xF → (t.reg x).toNat = 2 * (s.reg x).toNat % 256) ∧ (t.reg 0xF).toNat = (s.reg x).toNat / 128 ∧
    Records (fun e => e = .vfArg ∧ x = 0xF) s t ∧ OnlyChanges {.reg x, .reg 0xF, .evt} s t

/-- RND Vx, kk: this cycle's random byte, whatever it is, masked by kk; no flag (R49, R173; the free input is
decision D24, log 1). -/
def Obligations.RndMasksTheInput : Prop :=
  ∀ (x : Nibble) (kk : Byte) (s : State), ∃ t, exec (.rnd x kk) s = .next t ∧ OnlyChanges {.reg x} s t ∧
    ∀ k, (t.reg x).getLsbD k = (s.input.rnd.getLsbD k && kk.getLsbD k)

/-! ### Skip and compare -/

/-- SE Vx, kk and SNE Vx, kk: PC is 2 more, modulo 2^16, exactly when the condition holds; nothing else changes
(R200, R201, R202). -/
def Obligations.SkipsOnAnImmediate : Prop :=
  ∀ (x : Nibble) (kk : Byte) (s : State),
    (∃ t, exec (.seImm x kk) s = .next t ∧ OnlyChanges {.pc} s t ∧
      t.pc.toNat = (s.pc.toNat + if (s.reg x).toNat = kk.toNat then 2 else 0) % 65536) ∧
    (∃ t, exec (.sneImm x kk) s = .next t ∧ OnlyChanges {.pc} s t ∧
      t.pc.toNat = (s.pc.toNat + if (s.reg x).toNat = kk.toNat then 0 else 2) % 65536)

/-- SE Vx, Vy and SNE Vx, Vy, for every low nibble n; n ≠ 0 records NONCANON (R200; the ignored nibble of R203
and R204 is decision D29). -/
def Obligations.SkipsOnTwoRegisters : Prop :=
  ∀ (x y n : Nibble) (s : State),
    (∃ t, exec (.seReg x y n) s = .next t ∧ OnlyChanges {.pc, .evt} s t ∧
      Records (fun e => e = .nonCanon ∧ n ≠ 0) s t ∧
      t.pc.toNat = (s.pc.toNat + if (s.reg x).toNat = (s.reg y).toNat then 2 else 0) % 65536) ∧
    (∃ t, exec (.sneReg x y n) s = .next t ∧ OnlyChanges {.pc, .evt} s t ∧
      Records (fun e => e = .nonCanon ∧ n ≠ 0) s t ∧
      t.pc.toNat = (s.pc.toNat + if (s.reg x).toNat = (s.reg y).toNat then 0 else 2) % 65536)

/-- SKP Vx and SKNP Vx test the key that the low nibble of Vx names; Vx above 0xF records IDX_WRAP (R205, R206;
the low nibble is decision D17, the ignored nibble m D8). -/
def Obligations.SkipsOnAKey : Prop :=
  ∀ (x m : Nibble) (s : State),
    (∃ t, exec (.skp x m) s = .next t ∧ OnlyChanges {.pc, .evt} s t ∧
      Records (fun e => (e = .idxWrap ∧ 15 < (s.reg x).toNat) ∨ (e = .nonCanon ∧ m ≠ 9)) s t ∧
      t.pc.toNat = (s.pc.toNat + if s.key.getLsbD ((s.reg x).toNat % 16) then 2 else 0) % 65536) ∧
    (∃ t, exec (.sknp x m) s = .next t ∧ OnlyChanges {.pc, .evt} s t ∧
      Records (fun e => (e = .idxWrap ∧ 15 < (s.reg x).toNat) ∨ (e = .nonCanon ∧ m ≠ 0xA)) s t ∧
      t.pc.toNat = (s.pc.toNat + if s.key.getLsbD ((s.reg x).toNat % 16) then 0 else 2) % 65536)

/-! ### Display -/

/-- CLS turns every pixel off and changes no register and no memory (R220; 0nn0 as CLS is decision D8). -/
def Obligations.ClsTurnsEveryPixelOff : Prop :=
  ∀ (dc : Byte) (s : State), ∃ t, exec (.cls dc) s = .next t ∧
    (∀ x y, pixelAt t.fb x y = false) ∧ Records (fun e => e = .nonCanon ∧ dc ≠ 0x0E) s t ∧
    OnlyChanges (allPixels ∪ {.evt}) s t

/-- DRW Vx, Vy, n: every visible pixel is its old value XOR the sprite's bit there, the sprite starting at
(Vx mod 64, Vy mod 32) with bit 7 leftmost (R221, R223; bit order decision D14, clipping D12, the reduced sprite
address D2, the coordinates read first D9). -/
def Obligations.DrwXorsTheSprite : Prop :=
  ∀ (x y n : Nibble) (s : State), ∃ t, exec (.drw x y n) s = .next t ∧
    (∀ px py, px < 64 → py < 32 → pixelAt t.fb px py = (pixelAt s.fb px py ^^ s.spriteAt x y n px py)) ∧
    OnlyChanges (allPixels ∪ {.reg 0xF, .evt}) s t

/-- DRW sets VF to 1 exactly when a visible pixel that was on meets a set sprite bit, else to 0 (R225;
90_conflicts.md C3). Where the sprite's bits lie rests on the spec's own choices: bit 7 leftmost is decision D14,
the clipping D12, the reduced sprite address D2, the coordinates read before VF is written D9, and that n = 0 sets
VF to 0 D13 (log 13). -/
def Obligations.DrwFlagsCollision : Prop :=
  ∀ (x y n : Nibble) (s : State), ∃ t, exec (.drw x y n) s = .next t ∧
    ((∃ px py, onScreen px py ∧ pixelAt s.fb px py = true ∧ s.spriteAt x y n px py = true) → t.reg 0xF = 1) ∧
    ((¬ ∃ px py, onScreen px py ∧ pixelAt s.fb px py = true ∧ s.spriteAt x y n px py = true) → t.reg 0xF = 0)

/-- DRW records CLIP when a set sprite bit is off the screen, ADDR_WRAP when a sprite byte's address is 4096 or
more (clipped rows included), VF_ARG when VF is a coordinate, and nothing else (R40; decisions D2, D7, D9, D12,
D14). -/
def Obligations.DrwRecordsItsEvents : Prop :=
  ∀ (x y n : Nibble) (s : State), ∃ t, exec (.drw x y n) s = .next t ∧
    Records (fun e =>
      (e = .clip ∧ ∃ px py, ¬ onScreen px py ∧ s.spriteAt x y n px py = true) ∨
      (e = .addrWrap ∧ ∃ r, r < n.toNat ∧ 4096 ≤ s.i.toNat + r) ∨
      (e = .vfArg ∧ (x = 0xF ∨ y = 0xF))) s t

/-- DRW with n = 0 draws nothing and sets VF to 0 (decision D13). -/
def Obligations.DrwOfNoRows : Prop :=
  ∀ (x y : Nibble) (s : State), ∃ t, exec (.drw x y 0) s = .next t ∧ t.fb = s.fb ∧ t.reg 0xF = 0

/-- Drawing the same sprite twice, VF no coordinate, restores the frame buffer; and the second draw sets VF to 1
exactly when a set bit of the sprite lies on a visible pixel that was off before the first draw (R221, R225; the
first sentence of R229; the sprite's picture rests on decisions D2, D12, D14). R229's own words on the second VF
are SecondDrawAlwaysCollides below (log 12). -/
def Obligations.DrawingTwiceRestores : Prop :=
  ∀ (x y n : Nibble) (s : State), x ≠ 0xF → y ≠ 0xF → ∃ t u, exec (.drw x y n) s = .next t ∧
    exec (.drw x y n) t = .next u ∧ u.fb = s.fb ∧
    ((∃ px py, onScreen px py ∧ pixelAt s.fb px py = false ∧ s.spriteAt x y n px py = true) → u.reg 0xF = 1) ∧
    ((¬ ∃ px py, onScreen px py ∧ pixelAt s.fb px py = false ∧ s.spriteAt x y n px py = true) → u.reg 0xF = 0)

/-- R229's words on the second draw: it sets VF to 1 exactly when the sprite has a set bit inside the visible
area. EXPECTED TO FAIL: a pixel that was on before the first draw is off after it, so the second draw does not
collide there; the rule's reason, that every such pixel is on after the first draw, contradicts R221 and R225,
which the model follows (log 12). -/
def Obligations.SecondDrawAlwaysCollides : Prop :=
  ∀ (x y n : Nibble) (s t u : State), x ≠ 0xF → y ≠ 0xF → exec (.drw x y n) s = .next t →
    exec (.drw x y n) t = .next u →
    (u.reg 0xF = 1 ↔ ∃ px py, onScreen px py ∧ s.spriteAt x y n px py = true)

/-- R229's words on the second draw, where they hold: after a first draw that did not collide, the second draw sets
VF to 1 exactly when the sprite has a set bit inside the visible area (R221, R225; the case 90_conflicts.md C2
corrects; the sprite's picture rests on decisions D2, D12, D14). -/
def Obligations.SecondDrawCollidesAfterAFreshDraw : Prop :=
  ∀ (x y n : Nibble) (s t : State), x ≠ 0xF → y ≠ 0xF → exec (.drw x y n) s = .next t → t.reg 0xF = 0 →
    ∃ u, exec (.drw x y n) t = .next u ∧ u.fb = s.fb ∧
      ((∃ px py, onScreen px py ∧ s.spriteAt x y n px py = true) → u.reg 0xF = 1) ∧
      ((¬ ∃ px py, onScreen px py ∧ s.spriteAt x y n px py = true) → u.reg 0xF = 0)

/-- LD F, Vx: I is the address of the glyph that the low nibble of Vx names (R31; the low nibble and IDX_WRAP are
decisions D16 and D7). -/
def Obligations.LdFPointsAtTheGlyph : Prop :=
  ∀ (x : Nibble) (s : State), ∃ t, exec (.ldF x) s = .next t ∧
    t.i.toNat = 0x050 + 5 * ((s.reg x).toNat % 16) ∧
    Records (fun e => e = .idxWrap ∧ 15 < (s.reg x).toNat) s t ∧ OnlyChanges {.i, .evt} s t

/-! ### Index, timers, memory blocks, keys -/

/-- LD I, nnn and ADD I, Vx: I keeps 16 bits and no flag is set (R240; the width of the sum and VF are decisions
D4 and D11). -/
def Obligations.IndexIsLoadedAndAdded : Prop :=
  ∀ (x : Nibble) (nnn : Addr) (s : State),
    (∃ t, exec (.ldI nnn) s = .next t ∧ t.i.toNat = nnn.toNat ∧ OnlyChanges {.i} s t) ∧
    (∃ t, exec (.addI x) s = .next t ∧ t.i.toNat = (s.i.toNat + (s.reg x).toNat) % 65536 ∧
      OnlyChanges {.i} s t)

/-- LD Vx, DT; LD DT, Vx; LD ST, Vx copy between Vx and the timer and change nothing else (R242, R243, R244). -/
def Obligations.TimersAreCopied : Prop :=
  ∀ (x : Nibble) (s : State),
    (∃ t, exec (.ldVxDt x) s = .next t ∧ t.reg x = s.dt ∧ OnlyChanges {.reg x} s t) ∧
    (∃ t, exec (.ldDtVx x) s = .next t ∧ t.dt = s.reg x ∧ OnlyChanges {.dt} s t) ∧
    (∃ t, exec (.ldStVx x) s = .next t ∧ t.st = s.reg x ∧ OnlyChanges {.st} s t)

/-- LD B, Vx stores the hundreds, tens and ones of Vx, each a decimal digit, at I, I + 1, I + 2; every other byte
and every register is unchanged (R246; the reduction of an address is decision D2, ADDR_WRAP D7, that I is
unchanged D21; log 13). -/
def Obligations.BcdStoresThreeDigits : Prop :=
  ∀ (x : Nibble) (s : State), ∃ t, exec (.ldB x) s = .next t ∧
    100 * (t.peek s.i.toNat).toNat + 10 * (t.peek (s.i.toNat + 1)).toNat + (t.peek (s.i.toNat + 2)).toNat =
      (s.reg x).toNat ∧
    (t.peek s.i.toNat).toNat ≤ 2 ∧ (t.peek (s.i.toNat + 1)).toNat ≤ 9 ∧ (t.peek (s.i.toNat + 2)).toNat ≤ 9 ∧
    Records (fun e => e = .addrWrap ∧ ∃ k, k < 3 ∧ 4096 ≤ s.i.toNat + k) s t ∧
    OnlyChanges (blockBytes s.i.toNat 3 ∪ {.evt}) s t

/-- LD [I], Vx stores V0..Vx at I..I+x; every other byte, every register and I are unchanged (R248; I unchanged
is decision D21, the reduction D2, ADDR_WRAP D7). -/
def Obligations.StoreRegistersToMemory : Prop :=
  ∀ (x : Nibble) (s : State), ∃ t, exec (.storeRegs x) s = .next t ∧
    (∀ k : Nibble, k ≤ x → t.peek (s.i.toNat + k.toNat) = s.reg k) ∧
    Records (fun e => e = .addrWrap ∧ ∃ k : Nibble, k ≤ x ∧ 4096 ≤ s.i.toNat + k.toNat) s t ∧
    OnlyChanges (blockBytes s.i.toNat (x.toNat + 1) ∪ {.evt}) s t

/-- LD Vx, [I] loads V0..Vx from I..I+x; every other register, I and all of memory are unchanged (R250; I
unchanged is decision D21, the reduction D2, ADDR_WRAP D7). -/
def Obligations.LoadRegistersFromMemory : Prop :=
  ∀ (x : Nibble) (s : State), ∃ t, exec (.loadRegs x) s = .next t ∧
    (∀ k : Nibble, k ≤ x → t.reg k = s.peek (s.i.toNat + k.toNat)) ∧
    Records (fun e => e = .addrWrap ∧ ∃ k : Nibble, k ≤ x ∧ 4096 ≤ s.i.toNat + k.toNat) s t ∧
    OnlyChanges (regsTo x ∪ {.evt}) s t

/-- LD [I], Vx and then LD Vx, [I] leave every register as it was, and memory holds V0..Vx (R249). -/
def Obligations.StoreThenLoadRoundTrips : Prop :=
  ∀ (x : Nibble) (s : State), ∃ t u, exec (.storeRegs x) s = .next t ∧ exec (.loadRegs x) t = .next u ∧
    (∀ r, u.reg r = s.reg r) ∧ ∀ k : Nibble, k ≤ x → u.peek (s.i.toNat + k.toNat) = s.reg k

/-- LD Vx, K: with a key pressed, Vx is the number of the lowest pressed one and PC keeps the advanced value; with
none, PC is back at the instruction and nothing else changes (decision D18). -/
def Obligations.KeyWaitCompletesOrRepeats : Prop :=
  ∀ (x : Nibble) (s : State), ∃ t, exec (.ldVxK x) s = .next t ∧
    (∀ k, k < 16 → s.key.getLsbD k = true → (∀ j, j < k → s.key.getLsbD j = false) →
      (t.reg x).toNat = k ∧ OnlyChanges {.reg x} s t) ∧
    (s.key = 0 → t.pc.toNat = (s.pc.toNat + 65534) % 65536 ∧ OnlyChanges {.pc} s t)

/-- A whole step of a key wait: with no key pressed when it executes, PC is back at the instruction, the timers
tick, OP is the opcode fetched, KEY is what the host wrote (no key), ADDR_WRAP alone is recorded, and that only if a
fetch address is 4096 or more, and nothing else changes but the model's input fields (R262, R127; decisions D2, D7,
D18, D19). -/
def Obligations.WaitingStepHoldsPc : Prop :=
  ∀ (x : Nibble) (s : State), decodeWord s.nextOpcode = .ldVxK x → s.input.keyWrite.getD s.key = 0 →
    ∃ t, step s = .next t ∧ t.pc = s.pc ∧ t.dt.toNat = s.dt.toNat - s.input.tick.toNat ∧
      t.st.toNat = s.st.toNat - s.input.tick.toNat ∧ t.op = s.nextOpcode ∧ t.key = 0 ∧
      Records (fun e => e = .addrWrap ∧ (4096 ≤ s.pc.toNat ∨ 4096 ≤ s.pc.toNat + 1)) s t ∧
      OnlyChanges {.op, .key, .evt, .dt, .st, .inputs, .cycleNo} s t

/-- At the end of a run (a jump to itself) a step stays there: PC is the same, the run is still ended, and only OP,
KEY, the timers, EVT and the model's input fields can differ (R141; the definition of the end is decision
D27). -/
def Obligations.EndedRunStaysEnded : Prop :=
  ∀ s : State, s.ended = true → ∃ t, step s = .next t ∧ t.pc = s.pc ∧ t.ended = true ∧
    OnlyChanges {.op, .key, .evt, .dt, .st, .inputs, .cycleNo} s t

/-! ### Memory -/

/-- Every access is made at its address modulo 4096, a read gives the byte last written there, and an access at
4096 or more records ADDR_WRAP, a read changing nothing else (R69, R72; the reduction is decision D2). -/
def Obligations.MemoryReadsTheLastWrite : Prop :=
  ∀ (a c : Nat) (b : Byte) (s : State),
    ((s.memWrite a b).memRead c).1 = (if c % 4096 = a % 4096 then b else (s.memRead c).1) ∧
    Records (fun e => e = .addrWrap ∧ 4096 ≤ a) s (s.memWrite a b) ∧
    OnlyChanges {byteAt a, .evt} s (s.memWrite a b) ∧
    Records (fun e => e = .addrWrap ∧ 4096 ≤ a) s (s.memRead a).2 ∧
    OnlyChanges {.evt} s (s.memRead a).2

/-! ### Reset and the ports -/

/-- `rst`, a requested cycle and host writes in the same step or not, puts every element of the machine in its
reset value (R54; that it wins over a cycle is decision D28). The FONT bytes are the spec's default (D15,
log 3). -/
def Obligations.ResetSetsEveryElement : Prop :=
  ∀ (p : Ports) (s : State), p.rst = true → ∃ t, portStep p s = .next t ∧
    (∀ r, t.reg r = 0) ∧ t.i = 0 ∧ t.pc = 0x200 ∧ t.sp = 0 ∧ (∀ k : Fin 16, t.stack[k] = 0) ∧ t.dt = 0 ∧ t.st = 0 ∧
    (∀ k, k < 80 → t.peek (0x050 + k) = font.getD k 0) ∧
    (∀ a, a < 4096 → ¬ (0x050 ≤ a ∧ a ≤ 0x09F) → t.peek a = 0) ∧
    (∀ x y, pixelAt t.fb x y = false) ∧ t.key = 0 ∧ t.evt = 0 ∧ t.op = 0

/-- A step of the block with no reset and no cycle, whichever host writes are asked for: KEY is the one written,
if one is, the byte written reads back, and nothing else changes (R50, R51; decisions D25, D26). -/
def Obligations.HostWritesBetweenCycles : Prop :=
  ∀ (p : Ports) (s : State), p.rst = false → p.cycle = false →
    ∃ t, portStep p s = .next t ∧ t.key = p.keyWrite.getD s.key ∧
      (∀ a b, p.memWrite = some (a, b) → t.peek a.toNat = b ∧ OnlyChanges {byteAt a.toNat, .key} s t) ∧
      (p.memWrite = none → OnlyChanges {.key} s t)

/-- A step of the block that requests a cycle: the host's writes take effect first, then one cycle with the
given `tick` and `rnd` (R48, R49; decisions D1, D26). -/
def Obligations.HostWritesBeforeTheCycle : Prop :=
  ∀ (p : Ports) (s : State), p.rst = false → p.cycle = true →
    ∃ u, portStep p s = step u ∧ u.input.tick = p.tick ∧ u.input.rnd = p.rnd ∧
      u.beginCycle.key = p.keyWrite.getD s.key ∧
      (∀ a b, p.memWrite = some (a, b) → u.peek a.toNat = b ∧ OnlyChanges {byteAt a.toNat, .key, .inputs} s u) ∧
      (p.memWrite = none → OnlyChanges {.key, .inputs} s u)

/-- ROM load: byte j of an image of at most 3584 bytes goes to 0x200 + j and nothing else changes (R305). -/
def Obligations.RomLoadCopiesTheImage : Prop :=
  ∀ (image : List Byte) (s : State), image.length ≤ 3584 → ∃ t, s.loadRom image = some t ∧
    (∀ j (h : j < image.length), t.peek (0x200 + j) = image[j]) ∧
    OnlyChanges (blockBytes 0x200 image.length) s t

/-- The host's reads: pixel (x, y) at index y·64 + x, and `sound_on` exactly when ST is not zero (decisions D22,
D23). -/
def Obligations.HostReadsPixelsAndSound : Prop :=
  ∀ (s : State), (∀ x y, x < 64 → y < 32 → s.fbRead (BitVec.ofNat 11 (y * 64 + x)) = pixelAt s.fb x y) ∧
    (s.soundOn = true ↔ s.st.toNat ≠ 0)
end

