-- ==== Sys2Proof/Laws/Decode.lean ====
section
/-! SUPPORT. Opcodes and their fields as numbers, the fields of an opcode put together from its fields, and the
masks of the opcode table in terms of the fields. -/

namespace Sys2Proof

/-! ### Opcodes and fields as numbers -/

theorem toNat_append_add {n m : Nat} (x : BitVec n) (y : BitVec m) :
    (x ++ y).toNat = x.toNat * 2 ^ m + y.toNat := by
  rw [BitVec.toNat_append, Nat.shiftLeft_eq, Nat.mul_comm, ← Nat.two_pow_add_eq_or_of_lt y.isLt]

theorem toNat_nnn (p : Nibble) (a : Addr) : (p ++ a : Word).toNat = p.toNat * 4096 + a.toNat :=
  toNat_append_add p a

theorem toNat_xkk (p x : Nibble) (k : Byte) :
    (p ++ x ++ k : Word).toNat = p.toNat * 4096 + x.toNat * 256 + k.toNat := by
  rw [toNat_append_add, toNat_append_add]; omega

theorem toNat_xyn (p x y n : Nibble) :
    (p ++ x ++ y ++ n : Word).toNat = p.toNat * 4096 + x.toNat * 256 + y.toNat * 16 + n.toNat := by
  rw [toNat_append_add, toNat_append_add, toNat_append_add]; omega

theorem toNat_dc (p n : Nibble) (d : Byte) :
    (p ++ d ++ n : Word).toNat = p.toNat * 4096 + d.toNat * 16 + n.toNat := by
  rw [toNat_append_add, toNat_append_add]; omega

theorem fieldPrefix_toNat (op : Word) : (fieldPrefix op).toNat = op.toNat / 4096 % 16 := by
  simp [fieldPrefix, BitVec.extractLsb'_toNat, Nat.shiftRight_eq_div_pow]
theorem fieldX_toNat (op : Word) : (fieldX op).toNat = op.toNat / 256 % 16 := by
  simp [fieldX, BitVec.extractLsb'_toNat, Nat.shiftRight_eq_div_pow]
theorem fieldY_toNat (op : Word) : (fieldY op).toNat = op.toNat / 16 % 16 := by
  simp [fieldY, BitVec.extractLsb'_toNat, Nat.shiftRight_eq_div_pow]
theorem fieldN_toNat (op : Word) : (fieldN op).toNat = op.toNat % 16 := by
  simp [fieldN]
theorem fieldKk_toNat (op : Word) : (fieldKk op).toNat = op.toNat % 256 := by
  simp [fieldKk]
theorem fieldNnn_toNat (op : Word) : (fieldNnn op).toNat = op.toNat % 4096 := by
  simp [fieldNnn]
theorem fieldDc_toNat (op : Word) : (fieldDc op).toNat = op.toNat / 16 % 256 := by
  simp [fieldDc, BitVec.extractLsb'_toNat, Nat.shiftRight_eq_div_pow]

/-! ### Format nnn -/

@[simp] theorem fieldPrefix_nnn (p : Nibble) (a : Addr) : fieldPrefix (p ++ a) = p := by
  apply BitVec.eq_of_toNat_eq; rw [fieldPrefix_toNat, toNat_nnn]; omega
@[simp] theorem fieldNnn_nnn (p : Nibble) (a : Addr) : fieldNnn (p ++ a) = a := by
  apply BitVec.eq_of_toNat_eq; rw [fieldNnn_toNat, toNat_nnn]; omega
@[simp] theorem fieldN_nnn (p : Nibble) (a : Addr) : fieldN (p ++ a) = a.extractLsb' 0 4 := by
  apply BitVec.eq_of_toNat_eq
  rw [fieldN_toNat, toNat_nnn, BitVec.extractLsb'_toNat, Nat.shiftRight_zero]; omega

/-! ### Format xkk -/

@[simp] theorem fieldPrefix_xkk (p x : Nibble) (k : Byte) : fieldPrefix (p ++ x ++ k) = p := by
  apply BitVec.eq_of_toNat_eq; rw [fieldPrefix_toNat, toNat_xkk]; omega
@[simp] theorem fieldX_xkk (p x : Nibble) (k : Byte) : fieldX (p ++ x ++ k) = x := by
  apply BitVec.eq_of_toNat_eq; rw [fieldX_toNat, toNat_xkk]; omega
@[simp] theorem fieldKk_xkk (p x : Nibble) (k : Byte) : fieldKk (p ++ x ++ k) = k := by
  apply BitVec.eq_of_toNat_eq; rw [fieldKk_toNat, toNat_xkk]; omega

/-! ### Format xyn -/

@[simp] theorem fieldPrefix_xyn (p x y n : Nibble) : fieldPrefix (p ++ x ++ y ++ n) = p := by
  apply BitVec.eq_of_toNat_eq; rw [fieldPrefix_toNat, toNat_xyn]; omega
@[simp] theorem fieldX_xyn (p x y n : Nibble) : fieldX (p ++ x ++ y ++ n) = x := by
  apply BitVec.eq_of_toNat_eq; rw [fieldX_toNat, toNat_xyn]; omega
@[simp] theorem fieldY_xyn (p x y n : Nibble) : fieldY (p ++ x ++ y ++ n) = y := by
  apply BitVec.eq_of_toNat_eq; rw [fieldY_toNat, toNat_xyn]; omega
@[simp] theorem fieldN_xyn (p x y n : Nibble) : fieldN (p ++ x ++ y ++ n) = n := by
  apply BitVec.eq_of_toNat_eq; rw [fieldN_toNat, toNat_xyn]; omega

/-! ### Family 0 with its ignored bits -/

@[simp] theorem fieldPrefix_dc (p n : Nibble) (d : Byte) : fieldPrefix (p ++ d ++ n) = p := by
  apply BitVec.eq_of_toNat_eq; rw [fieldPrefix_toNat, toNat_dc]; omega
@[simp] theorem fieldDc_dc (p n : Nibble) (d : Byte) : fieldDc (p ++ d ++ n) = d := by
  apply BitVec.eq_of_toNat_eq; rw [fieldDc_toNat, toNat_dc]; omega
@[simp] theorem fieldN_dc (p n : Nibble) (d : Byte) : fieldN (p ++ d ++ n) = n := by
  apply BitVec.eq_of_toNat_eq; rw [fieldN_toNat, toNat_dc]; omega

/-! ### The masks of the opcode table -/

/-- The mask of a row whose prefix alone is fixed. -/
theorem and_F000 (op : Word) : op &&& 0xF000#16 = (fieldPrefix op).setWidth 16 <<< 12 := by
  ext i hi; simp only [fieldPrefix]; interval_cases i <;> simp

/-- The mask of a row whose prefix and low nibble are fixed. -/
theorem and_F00F (op : Word) :
    op &&& 0xF00F#16 = (fieldPrefix op).setWidth 16 <<< 12 ||| (fieldN op).setWidth 16 := by
  ext i hi; simp only [fieldPrefix, fieldN]; interval_cases i <;> simp

/-- The mask of a row whose prefix and low byte are fixed. -/
theorem and_F0FF (op : Word) :
    op &&& 0xF0FF#16 = (fieldPrefix op).setWidth 16 <<< 12 ||| (fieldKk op).setWidth 16 := by
  ext i hi; simp only [fieldPrefix, fieldKk]; interval_cases i <;> simp

/-! ### The bytes of an opcode -/

/-- The big-endian combination as a number. -/
theorem wordOfBytes_toNat (hi lo : Byte) : (wordOfBytes hi lo).toNat = 256 * hi.toNat + lo.toNat := by
  rw [wordOfBytes, toNat_append_add]; omega

@[simp] theorem wordOfBytes_bytes (op : Word) : wordOfBytes (highByte op) (lowByte op) = op := by
  apply BitVec.eq_of_toNat_eq
  rw [wordOfBytes_toNat, highByte, lowByte, BitVec.extractLsb'_toNat, BitVec.extractLsb'_toNat,
    Nat.shiftRight_eq_div_pow, Nat.shiftRight_zero]
  have := op.isLt
  omega

end Sys2Proof
end

