-- ==== Sys2Proof/Laws/Memory.lean ====
section
/-! SUPPORT. What reading, writing and the canonical form of memory have to do with each other. -/

namespace Sys2Proof.Machine

theorem Memory.read_insert_self (m : Memory) (a : Nat) (b : Byte) (h : ∀ c ∈ m, c.1 ≠ a) :
    (Memory.insert a b m).read a = b := by
  induction m with
  | nil => simp [Memory.insert, Memory.read]
  | cons c m ih =>
    obtain ⟨a', b'⟩ := c
    have hne : a ≠ a' := fun e => h (a', b') (by simp) e.symm
    have hm : ∀ c ∈ m, c.1 ≠ a := fun c hc => h c (by simp [hc])
    simp only [Memory.insert]
    split
    · simp [Memory.read]
    · simp [Memory.read, hne, ih hm]

theorem Memory.read_insert_other (m : Memory) {a c : Nat} (b : Byte) (h : c ≠ a) :
    (Memory.insert a b m).read c = m.read c := by
  induction m with
  | nil => simp [Memory.insert, Memory.read, h]
  | cons d m ih =>
    obtain ⟨a', b'⟩ := d
    simp only [Memory.insert]
    split
    · simp [Memory.read, h]
    · simp [Memory.read, ih]

theorem Memory.read_erase_self (m : Memory) (a : Nat) : (Memory.erase a m).read a = initialByte a := by
  induction m with
  | nil => rfl
  | cons c m ih =>
    obtain ⟨a', b'⟩ := c
    simp only [Memory.erase, List.filter_cons] at ih ⊢
    by_cases h : a' = a
    · simpa [h] using ih
    · simpa [h, Memory.read, Ne.symm h] using ih

theorem Memory.read_erase_other (m : Memory) {a c : Nat} (h : c ≠ a) :
    (Memory.erase a m).read c = m.read c := by
  induction m with
  | nil => rfl
  | cons d m ih =>
    obtain ⟨a', b'⟩ := d
    simp only [Memory.erase, List.filter_cons] at ih ⊢
    by_cases h' : a' = a
    · subst h'; simpa [Memory.read, h] using ih
    · by_cases hc : c = a' <;> simp_all [Memory.read]

theorem Memory.erase_ne (m : Memory) (a : Nat) : ∀ c ∈ Memory.erase a m, c.1 ≠ a := by
  intro c hc
  simpa using (List.mem_filter.1 hc).2

/-- Reading a written address gives the byte written. -/
@[simp] theorem Memory.read_write_self (m : Memory) (a : Nat) (b : Byte) : (m.write a b).read a = b := by
  unfold Memory.write
  split
  · rename_i h; rw [Memory.read_erase_self, h]
  · exact Memory.read_insert_self _ _ _ (Memory.erase_ne m a)

/-- A write leaves every other address alone. -/
theorem Memory.read_write_other (m : Memory) {a c : Nat} (b : Byte) (h : c ≠ a) :
    (m.write a b).read c = m.read c := by
  unfold Memory.write
  split
  · exact Memory.read_erase_other m h
  · rw [Memory.read_insert_other _ _ h, Memory.read_erase_other m h]

theorem Memory.read_write (m : Memory) (a c : Nat) (b : Byte) :
    (m.write a b).read c = if c = a then b else m.read c := by
  by_cases h : c = a
  · simp [h]
  · simp [h, Memory.read_write_other m b h]

/-! ### The canonical form -/

theorem Memory.wf_cons (a : Nat) (b : Byte) (m : Memory) :
    Memory.wf ((a, b) :: m) = true ↔
      a < 4096 ∧ b ≠ initialByte a ∧ (∀ c ∈ m, a < c.1) ∧ Memory.wf m = true := by
  simp [Memory.wf, and_assoc]

theorem Memory.wf_erase (m : Memory) (a : Nat) (h : m.wf = true) : (Memory.erase a m).wf = true := by
  induction m with
  | nil => rfl
  | cons c m ih =>
    obtain ⟨a', b'⟩ := c
    rw [Memory.wf_cons] at h
    obtain ⟨h1, h2, h3, h4⟩ := h
    have ih := ih h4
    simp only [Memory.erase, List.filter_cons] at ih ⊢
    split
    · rw [Memory.wf_cons]
      exact ⟨h1, h2, fun c hc => h3 c (List.mem_of_mem_filter hc), ih⟩
    · exact ih

theorem Memory.mem_insert {m : Memory} {a : Nat} {b : Byte} {c : Host.Cell}
    (h : c ∈ Memory.insert a b m) : c = (a, b) ∨ c ∈ m := by
  induction m with
  | nil => simpa [Memory.insert] using h
  | cons d m ih =>
    obtain ⟨a', b'⟩ := d
    simp only [Memory.insert] at h
    split at h
    · simpa using h
    · rcases List.mem_cons.1 h with h | h
      · exact .inr (by simp [h])
      · rcases ih h with h | h
        · exact .inl h
        · exact .inr (by simp [h])

theorem Memory.wf_insert (m : Memory) (a : Nat) (b : Byte) (h : m.wf = true) (ha : a < 4096)
    (hb : b ≠ initialByte a) (hm : ∀ c ∈ m, c.1 ≠ a) : (Memory.insert a b m).wf = true := by
  induction m with
  | nil => simp [Memory.insert, Memory.wf, ha, hb]
  | cons c m ih =>
    obtain ⟨a', b'⟩ := c
    have h' := h
    rw [Memory.wf_cons] at h
    obtain ⟨h1, h2, h3, h4⟩ := h
    have hne : a' ≠ a := hm (a', b') (by simp)
    simp only [Memory.insert]
    split
    · rename_i hlt
      rw [Memory.wf_cons]
      refine ⟨ha, hb, fun c hc => ?_, h'⟩
      rcases List.mem_cons.1 hc with hc | hc
      · subst hc; exact hlt
      · exact lt_trans hlt (h3 c hc)
    · rename_i hlt
      rw [Memory.wf_cons]
      refine ⟨h1, h2, fun c hc => ?_, ih h4 fun c hc => hm c (by simp [hc])⟩
      rcases Memory.mem_insert hc with hc | hc
      · subst hc; show a' < a; omega
      · exact h3 c hc

/-- A write at an address of MEM keeps the canonical form. -/
theorem Memory.wf_write (m : Memory) (a : Nat) (b : Byte) (h : m.wf = true) (ha : a < 4096) :
    (m.write a b).wf = true := by
  unfold Memory.write
  split
  · exact Memory.wf_erase m a h
  · rename_i hb
    exact Memory.wf_insert _ a b (Memory.wf_erase m a h) ha hb (Memory.erase_ne m a)

theorem Memory.read_lt_of_wf_head {a c : Nat} {m : Memory} (hc : ∀ d ∈ m, a < d.1) (h : c ≤ a) :
    m.read c = initialByte c := by
  induction m with
  | nil => rfl
  | cons d m ih =>
    obtain ⟨a', b'⟩ := d
    have h1 : a < a' := hc (a', b') (by simp)
    have hne : c ≠ a' := by omega
    simp only [Memory.read, hne, if_false]
    exact ih fun d hd => hc d (by simp [hd])

/-- Memories in canonical form that read the same everywhere are equal data. -/
theorem Memory.ext_of_wf (m m' : Memory) (h : m.wf = true) (h' : m'.wf = true)
    (hr : ∀ a, m.read a = m'.read a) : m = m' := by
  induction m generalizing m' with
  | nil =>
    cases m' with
    | nil => rfl
    | cons c m' =>
      obtain ⟨a, b⟩ := c
      rw [Memory.wf_cons] at h'
      have := hr a
      simp [Memory.read] at this
      exact absurd this.symm h'.2.1
  | cons c m ih =>
    obtain ⟨a, b⟩ := c
    have hw := h
    rw [Memory.wf_cons] at h
    obtain ⟨h1, h2, h3, h4⟩ := h
    cases m' with
    | nil =>
      have := hr a
      simp [Memory.read] at this
      exact absurd this h2
    | cons c' m' =>
      obtain ⟨a', b'⟩ := c'
      rw [Memory.wf_cons] at h'
      obtain ⟨h1', h2', h3', h4'⟩ := h'
      have haa : a = a' := by
        rcases Nat.lt_trichotomy a a' with hlt | heq | hgt
        · have := hr a
          simp only [Memory.read, if_true, Nat.ne_of_lt hlt, if_false] at this
          rw [Memory.read_lt_of_wf_head h3' (Nat.le_of_lt hlt)] at this
          exact absurd this h2
        · exact heq
        · have := hr a'
          simp only [Memory.read, if_true, Nat.ne_of_lt hgt, if_false] at this
          rw [Memory.read_lt_of_wf_head h3 (Nat.le_of_lt hgt)] at this
          exact absurd this.symm h2'
      subst haa
      have hb : b = b' := by simpa [Memory.read] using hr a
      subst hb
      refine congrArg _ (ih m' h4 h4' fun c => ?_)
      by_cases hc : c = a
      · subst hc
        rw [Memory.read_lt_of_wf_head h3 (le_refl _), Memory.read_lt_of_wf_head h3' (le_refl _)]
      · simpa [Memory.read, hc] using hr c

/-- The reset memory is in canonical form. -/
theorem reset_mem_wf : State.reset.mem.wf = true := rfl

end Sys2Proof.Machine
end

