-- ==== Sys2Proof/Laws/State.lean ====
section
/-! SUPPORT. One lemma per field per update of the state, so that no proof unfolds a record update; and the same
for the reads `reg`, `peek` and `input`. -/

namespace Sys2Proof.Machine

variable (s : State)

/-! ### eventIf -/

@[simp] theorem State.eventIf_v (c : Bool) (e : Event) : (s.eventIf c e).v = s.v := rfl
@[simp] theorem State.eventIf_i (c : Bool) (e : Event) : (s.eventIf c e).i = s.i := rfl
@[simp] theorem State.eventIf_pc (c : Bool) (e : Event) : (s.eventIf c e).pc = s.pc := rfl
@[simp] theorem State.eventIf_sp (c : Bool) (e : Event) : (s.eventIf c e).sp = s.sp := rfl
@[simp] theorem State.eventIf_stack (c : Bool) (e : Event) : (s.eventIf c e).stack = s.stack := rfl
@[simp] theorem State.eventIf_dt (c : Bool) (e : Event) : (s.eventIf c e).dt = s.dt := rfl
@[simp] theorem State.eventIf_st (c : Bool) (e : Event) : (s.eventIf c e).st = s.st := rfl
@[simp] theorem State.eventIf_mem (c : Bool) (e : Event) : (s.eventIf c e).mem = s.mem := rfl
@[simp] theorem State.eventIf_fb (c : Bool) (e : Event) : (s.eventIf c e).fb = s.fb := rfl
@[simp] theorem State.eventIf_key (c : Bool) (e : Event) : (s.eventIf c e).key = s.key := rfl
@[simp] theorem State.eventIf_evt (c : Bool) (e : Event) : (s.eventIf c e).evt = evtWith c e s.evt := rfl
@[simp] theorem State.eventIf_op (c : Bool) (e : Event) : (s.eventIf c e).op = s.op := rfl
@[simp] theorem State.eventIf_inputs (c : Bool) (e : Event) : (s.eventIf c e).inputs = s.inputs := rfl
@[simp] theorem State.eventIf_cycleNo (c : Bool) (e : Event) : (s.eventIf c e).cycleNo = s.cycleNo := rfl
@[simp] theorem State.eventIf_reg (c : Bool) (e : Event) (y : Nibble) : (s.eventIf c e).reg y = s.reg y := rfl
@[simp] theorem State.eventIf_peek (c : Bool) (e : Event) (k : Nat) : (s.eventIf c e).peek k = s.peek k := rfl
@[simp] theorem State.eventIf_input (c : Bool) (e : Event) : (s.eventIf c e).input = s.input := rfl

/-! ### setReg -/

@[simp] theorem State.setReg_v (x : Nibble) (b : Byte) : (s.setReg x b).v = s.v.set x.toNat b (nibble_lt x) := rfl
@[simp] theorem State.setReg_i (x : Nibble) (b : Byte) : (s.setReg x b).i = s.i := rfl
@[simp] theorem State.setReg_pc (x : Nibble) (b : Byte) : (s.setReg x b).pc = s.pc := rfl
@[simp] theorem State.setReg_sp (x : Nibble) (b : Byte) : (s.setReg x b).sp = s.sp := rfl
@[simp] theorem State.setReg_stack (x : Nibble) (b : Byte) : (s.setReg x b).stack = s.stack := rfl
@[simp] theorem State.setReg_dt (x : Nibble) (b : Byte) : (s.setReg x b).dt = s.dt := rfl
@[simp] theorem State.setReg_st (x : Nibble) (b : Byte) : (s.setReg x b).st = s.st := rfl
@[simp] theorem State.setReg_mem (x : Nibble) (b : Byte) : (s.setReg x b).mem = s.mem := rfl
@[simp] theorem State.setReg_fb (x : Nibble) (b : Byte) : (s.setReg x b).fb = s.fb := rfl
@[simp] theorem State.setReg_key (x : Nibble) (b : Byte) : (s.setReg x b).key = s.key := rfl
@[simp] theorem State.setReg_evt (x : Nibble) (b : Byte) : (s.setReg x b).evt = s.evt := rfl
@[simp] theorem State.setReg_op (x : Nibble) (b : Byte) : (s.setReg x b).op = s.op := rfl
@[simp] theorem State.setReg_inputs (x : Nibble) (b : Byte) : (s.setReg x b).inputs = s.inputs := rfl
@[simp] theorem State.setReg_cycleNo (x : Nibble) (b : Byte) : (s.setReg x b).cycleNo = s.cycleNo := rfl
@[simp] theorem State.setReg_peek (x : Nibble) (b : Byte) (k : Nat) : (s.setReg x b).peek k = s.peek k := rfl
@[simp] theorem State.setReg_input (x : Nibble) (b : Byte) : (s.setReg x b).input = s.input := rfl

/-! ### setI -/

@[simp] theorem State.setI_v (w : Word) : (s.setI w).v = s.v := rfl
@[simp] theorem State.setI_i (w : Word) : (s.setI w).i = w := rfl
@[simp] theorem State.setI_pc (w : Word) : (s.setI w).pc = s.pc := rfl
@[simp] theorem State.setI_sp (w : Word) : (s.setI w).sp = s.sp := rfl
@[simp] theorem State.setI_stack (w : Word) : (s.setI w).stack = s.stack := rfl
@[simp] theorem State.setI_dt (w : Word) : (s.setI w).dt = s.dt := rfl
@[simp] theorem State.setI_st (w : Word) : (s.setI w).st = s.st := rfl
@[simp] theorem State.setI_mem (w : Word) : (s.setI w).mem = s.mem := rfl
@[simp] theorem State.setI_fb (w : Word) : (s.setI w).fb = s.fb := rfl
@[simp] theorem State.setI_key (w : Word) : (s.setI w).key = s.key := rfl
@[simp] theorem State.setI_evt (w : Word) : (s.setI w).evt = s.evt := rfl
@[simp] theorem State.setI_op (w : Word) : (s.setI w).op = s.op := rfl
@[simp] theorem State.setI_inputs (w : Word) : (s.setI w).inputs = s.inputs := rfl
@[simp] theorem State.setI_cycleNo (w : Word) : (s.setI w).cycleNo = s.cycleNo := rfl
@[simp] theorem State.setI_reg (w : Word) (y : Nibble) : (s.setI w).reg y = s.reg y := rfl
@[simp] theorem State.setI_peek (w : Word) (k : Nat) : (s.setI w).peek k = s.peek k := rfl
@[simp] theorem State.setI_input (w : Word) : (s.setI w).input = s.input := rfl

/-! ### setPc -/

@[simp] theorem State.setPc_v (w : Word) : (s.setPc w).v = s.v := rfl
@[simp] theorem State.setPc_i (w : Word) : (s.setPc w).i = s.i := rfl
@[simp] theorem State.setPc_pc (w : Word) : (s.setPc w).pc = w := rfl
@[simp] theorem State.setPc_sp (w : Word) : (s.setPc w).sp = s.sp := rfl
@[simp] theorem State.setPc_stack (w : Word) : (s.setPc w).stack = s.stack := rfl
@[simp] theorem State.setPc_dt (w : Word) : (s.setPc w).dt = s.dt := rfl
@[simp] theorem State.setPc_st (w : Word) : (s.setPc w).st = s.st := rfl
@[simp] theorem State.setPc_mem (w : Word) : (s.setPc w).mem = s.mem := rfl
@[simp] theorem State.setPc_fb (w : Word) : (s.setPc w).fb = s.fb := rfl
@[simp] theorem State.setPc_key (w : Word) : (s.setPc w).key = s.key := rfl
@[simp] theorem State.setPc_evt (w : Word) : (s.setPc w).evt = s.evt := rfl
@[simp] theorem State.setPc_op (w : Word) : (s.setPc w).op = s.op := rfl
@[simp] theorem State.setPc_inputs (w : Word) : (s.setPc w).inputs = s.inputs := rfl
@[simp] theorem State.setPc_cycleNo (w : Word) : (s.setPc w).cycleNo = s.cycleNo := rfl
@[simp] theorem State.setPc_reg (w : Word) (y : Nibble) : (s.setPc w).reg y = s.reg y := rfl
@[simp] theorem State.setPc_peek (w : Word) (k : Nat) : (s.setPc w).peek k = s.peek k := rfl
@[simp] theorem State.setPc_input (w : Word) : (s.setPc w).input = s.input := rfl

/-! ### setDt -/

@[simp] theorem State.setDt_v (b : Byte) : (s.setDt b).v = s.v := rfl
@[simp] theorem State.setDt_i (b : Byte) : (s.setDt b).i = s.i := rfl
@[simp] theorem State.setDt_pc (b : Byte) : (s.setDt b).pc = s.pc := rfl
@[simp] theorem State.setDt_sp (b : Byte) : (s.setDt b).sp = s.sp := rfl
@[simp] theorem State.setDt_stack (b : Byte) : (s.setDt b).stack = s.stack := rfl
@[simp] theorem State.setDt_dt (b : Byte) : (s.setDt b).dt = b := rfl
@[simp] theorem State.setDt_st (b : Byte) : (s.setDt b).st = s.st := rfl
@[simp] theorem State.setDt_mem (b : Byte) : (s.setDt b).mem = s.mem := rfl
@[simp] theorem State.setDt_fb (b : Byte) : (s.setDt b).fb = s.fb := rfl
@[simp] theorem State.setDt_key (b : Byte) : (s.setDt b).key = s.key := rfl
@[simp] theorem State.setDt_evt (b : Byte) : (s.setDt b).evt = s.evt := rfl
@[simp] theorem State.setDt_op (b : Byte) : (s.setDt b).op = s.op := rfl
@[simp] theorem State.setDt_inputs (b : Byte) : (s.setDt b).inputs = s.inputs := rfl
@[simp] theorem State.setDt_cycleNo (b : Byte) : (s.setDt b).cycleNo = s.cycleNo := rfl
@[simp] theorem State.setDt_reg (b : Byte) (y : Nibble) : (s.setDt b).reg y = s.reg y := rfl
@[simp] theorem State.setDt_peek (b : Byte) (k : Nat) : (s.setDt b).peek k = s.peek k := rfl
@[simp] theorem State.setDt_input (b : Byte) : (s.setDt b).input = s.input := rfl

/-! ### setSt -/

@[simp] theorem State.setSt_v (b : Byte) : (s.setSt b).v = s.v := rfl
@[simp] theorem State.setSt_i (b : Byte) : (s.setSt b).i = s.i := rfl
@[simp] theorem State.setSt_pc (b : Byte) : (s.setSt b).pc = s.pc := rfl
@[simp] theorem State.setSt_sp (b : Byte) : (s.setSt b).sp = s.sp := rfl
@[simp] theorem State.setSt_stack (b : Byte) : (s.setSt b).stack = s.stack := rfl
@[simp] theorem State.setSt_dt (b : Byte) : (s.setSt b).dt = s.dt := rfl
@[simp] theorem State.setSt_st (b : Byte) : (s.setSt b).st = b := rfl
@[simp] theorem State.setSt_mem (b : Byte) : (s.setSt b).mem = s.mem := rfl
@[simp] theorem State.setSt_fb (b : Byte) : (s.setSt b).fb = s.fb := rfl
@[simp] theorem State.setSt_key (b : Byte) : (s.setSt b).key = s.key := rfl
@[simp] theorem State.setSt_evt (b : Byte) : (s.setSt b).evt = s.evt := rfl
@[simp] theorem State.setSt_op (b : Byte) : (s.setSt b).op = s.op := rfl
@[simp] theorem State.setSt_inputs (b : Byte) : (s.setSt b).inputs = s.inputs := rfl
@[simp] theorem State.setSt_cycleNo (b : Byte) : (s.setSt b).cycleNo = s.cycleNo := rfl
@[simp] theorem State.setSt_reg (b : Byte) (y : Nibble) : (s.setSt b).reg y = s.reg y := rfl
@[simp] theorem State.setSt_peek (b : Byte) (k : Nat) : (s.setSt b).peek k = s.peek k := rfl
@[simp] theorem State.setSt_input (b : Byte) : (s.setSt b).input = s.input := rfl

/-! ### setOp -/

@[simp] theorem State.setOp_v (w : Word) : (s.setOp w).v = s.v := rfl
@[simp] theorem State.setOp_i (w : Word) : (s.setOp w).i = s.i := rfl
@[simp] theorem State.setOp_pc (w : Word) : (s.setOp w).pc = s.pc := rfl
@[simp] theorem State.setOp_sp (w : Word) : (s.setOp w).sp = s.sp := rfl
@[simp] theorem State.setOp_stack (w : Word) : (s.setOp w).stack = s.stack := rfl
@[simp] theorem State.setOp_dt (w : Word) : (s.setOp w).dt = s.dt := rfl
@[simp] theorem State.setOp_st (w : Word) : (s.setOp w).st = s.st := rfl
@[simp] theorem State.setOp_mem (w : Word) : (s.setOp w).mem = s.mem := rfl
@[simp] theorem State.setOp_fb (w : Word) : (s.setOp w).fb = s.fb := rfl
@[simp] theorem State.setOp_key (w : Word) : (s.setOp w).key = s.key := rfl
@[simp] theorem State.setOp_evt (w : Word) : (s.setOp w).evt = s.evt := rfl
@[simp] theorem State.setOp_op (w : Word) : (s.setOp w).op = w := rfl
@[simp] theorem State.setOp_inputs (w : Word) : (s.setOp w).inputs = s.inputs := rfl
@[simp] theorem State.setOp_cycleNo (w : Word) : (s.setOp w).cycleNo = s.cycleNo := rfl
@[simp] theorem State.setOp_reg (w : Word) (y : Nibble) : (s.setOp w).reg y = s.reg y := rfl
@[simp] theorem State.setOp_peek (w : Word) (k : Nat) : (s.setOp w).peek k = s.peek k := rfl
@[simp] theorem State.setOp_input (w : Word) : (s.setOp w).input = s.input := rfl

/-! ### setKey -/

@[simp] theorem State.setKey_v (w : Word) : (s.setKey w).v = s.v := rfl
@[simp] theorem State.setKey_i (w : Word) : (s.setKey w).i = s.i := rfl
@[simp] theorem State.setKey_pc (w : Word) : (s.setKey w).pc = s.pc := rfl
@[simp] theorem State.setKey_sp (w : Word) : (s.setKey w).sp = s.sp := rfl
@[simp] theorem State.setKey_stack (w : Word) : (s.setKey w).stack = s.stack := rfl
@[simp] theorem State.setKey_dt (w : Word) : (s.setKey w).dt = s.dt := rfl
@[simp] theorem State.setKey_st (w : Word) : (s.setKey w).st = s.st := rfl
@[simp] theorem State.setKey_mem (w : Word) : (s.setKey w).mem = s.mem := rfl
@[simp] theorem State.setKey_fb (w : Word) : (s.setKey w).fb = s.fb := rfl
@[simp] theorem State.setKey_key (w : Word) : (s.setKey w).key = w := rfl
@[simp] theorem State.setKey_evt (w : Word) : (s.setKey w).evt = s.evt := rfl
@[simp] theorem State.setKey_op (w : Word) : (s.setKey w).op = s.op := rfl
@[simp] theorem State.setKey_inputs (w : Word) : (s.setKey w).inputs = s.inputs := rfl
@[simp] theorem State.setKey_cycleNo (w : Word) : (s.setKey w).cycleNo = s.cycleNo := rfl
@[simp] theorem State.setKey_reg (w : Word) (y : Nibble) : (s.setKey w).reg y = s.reg y := rfl
@[simp] theorem State.setKey_peek (w : Word) (k : Nat) : (s.setKey w).peek k = s.peek k := rfl
@[simp] theorem State.setKey_input (w : Word) : (s.setKey w).input = s.input := rfl

/-! ### setFb -/

@[simp] theorem State.setFb_v (f : FrameBuffer) : (s.setFb f).v = s.v := rfl
@[simp] theorem State.setFb_i (f : FrameBuffer) : (s.setFb f).i = s.i := rfl
@[simp] theorem State.setFb_pc (f : FrameBuffer) : (s.setFb f).pc = s.pc := rfl
@[simp] theorem State.setFb_sp (f : FrameBuffer) : (s.setFb f).sp = s.sp := rfl
@[simp] theorem State.setFb_stack (f : FrameBuffer) : (s.setFb f).stack = s.stack := rfl
@[simp] theorem State.setFb_dt (f : FrameBuffer) : (s.setFb f).dt = s.dt := rfl
@[simp] theorem State.setFb_st (f : FrameBuffer) : (s.setFb f).st = s.st := rfl
@[simp] theorem State.setFb_mem (f : FrameBuffer) : (s.setFb f).mem = s.mem := rfl
@[simp] theorem State.setFb_fb (f : FrameBuffer) : (s.setFb f).fb = f := rfl
@[simp] theorem State.setFb_key (f : FrameBuffer) : (s.setFb f).key = s.key := rfl
@[simp] theorem State.setFb_evt (f : FrameBuffer) : (s.setFb f).evt = s.evt := rfl
@[simp] theorem State.setFb_op (f : FrameBuffer) : (s.setFb f).op = s.op := rfl
@[simp] theorem State.setFb_inputs (f : FrameBuffer) : (s.setFb f).inputs = s.inputs := rfl
@[simp] theorem State.setFb_cycleNo (f : FrameBuffer) : (s.setFb f).cycleNo = s.cycleNo := rfl
@[simp] theorem State.setFb_reg (f : FrameBuffer) (y : Nibble) : (s.setFb f).reg y = s.reg y := rfl
@[simp] theorem State.setFb_peek (f : FrameBuffer) (k : Nat) : (s.setFb f).peek k = s.peek k := rfl
@[simp] theorem State.setFb_input (f : FrameBuffer) : (s.setFb f).input = s.input := rfl

/-! ### poke -/

@[simp] theorem State.poke_v (a : Nat) (b : Byte) : (s.poke a b).v = s.v := rfl
@[simp] theorem State.poke_i (a : Nat) (b : Byte) : (s.poke a b).i = s.i := rfl
@[simp] theorem State.poke_pc (a : Nat) (b : Byte) : (s.poke a b).pc = s.pc := rfl
@[simp] theorem State.poke_sp (a : Nat) (b : Byte) : (s.poke a b).sp = s.sp := rfl
@[simp] theorem State.poke_stack (a : Nat) (b : Byte) : (s.poke a b).stack = s.stack := rfl
@[simp] theorem State.poke_dt (a : Nat) (b : Byte) : (s.poke a b).dt = s.dt := rfl
@[simp] theorem State.poke_st (a : Nat) (b : Byte) : (s.poke a b).st = s.st := rfl
@[simp] theorem State.poke_mem (a : Nat) (b : Byte) : (s.poke a b).mem = s.mem.write (a % 4096) b := rfl
@[simp] theorem State.poke_fb (a : Nat) (b : Byte) : (s.poke a b).fb = s.fb := rfl
@[simp] theorem State.poke_key (a : Nat) (b : Byte) : (s.poke a b).key = s.key := rfl
@[simp] theorem State.poke_evt (a : Nat) (b : Byte) : (s.poke a b).evt = s.evt := rfl
@[simp] theorem State.poke_op (a : Nat) (b : Byte) : (s.poke a b).op = s.op := rfl
@[simp] theorem State.poke_inputs (a : Nat) (b : Byte) : (s.poke a b).inputs = s.inputs := rfl
@[simp] theorem State.poke_cycleNo (a : Nat) (b : Byte) : (s.poke a b).cycleNo = s.cycleNo := rfl
@[simp] theorem State.poke_reg (a : Nat) (b : Byte) (y : Nibble) : (s.poke a b).reg y = s.reg y := rfl
@[simp] theorem State.poke_input (a : Nat) (b : Byte) : (s.poke a b).input = s.input := rfl

/-! ### nextInput -/

@[simp] theorem State.nextInput_v : (s.nextInput).v = s.v := rfl
@[simp] theorem State.nextInput_i : (s.nextInput).i = s.i := rfl
@[simp] theorem State.nextInput_pc : (s.nextInput).pc = s.pc := rfl
@[simp] theorem State.nextInput_sp : (s.nextInput).sp = s.sp := rfl
@[simp] theorem State.nextInput_stack : (s.nextInput).stack = s.stack := rfl
@[simp] theorem State.nextInput_dt : (s.nextInput).dt = s.dt := rfl
@[simp] theorem State.nextInput_st : (s.nextInput).st = s.st := rfl
@[simp] theorem State.nextInput_mem : (s.nextInput).mem = s.mem := rfl
@[simp] theorem State.nextInput_fb : (s.nextInput).fb = s.fb := rfl
@[simp] theorem State.nextInput_key : (s.nextInput).key = s.key := rfl
@[simp] theorem State.nextInput_evt : (s.nextInput).evt = s.evt := rfl
@[simp] theorem State.nextInput_op : (s.nextInput).op = s.op := rfl
@[simp] theorem State.nextInput_inputs : (s.nextInput).inputs = s.inputs.tail := rfl
@[simp] theorem State.nextInput_cycleNo : (s.nextInput).cycleNo = s.cycleNo + 1 := rfl
@[simp] theorem State.nextInput_reg (y : Nibble) : (s.nextInput).reg y = s.reg y := rfl
@[simp] theorem State.nextInput_peek (k : Nat) : (s.nextInput).peek k = s.peek k := rfl

/-! ### The operations that are one of these updates -/

@[simp] theorem State.event_eq (e : Event) : s.event e = s.eventIf true e := rfl
@[simp] theorem State.advance_eq : s.advance = s.setPc (s.pc + 2) := rfl
@[simp] theorem State.noteAddr_eq (a : Nat) : s.noteAddr a = s.eventIf (decide (4096 ≤ a)) .addrWrap := rfl
@[simp] theorem State.noteIndex_eq (b : Byte) : s.noteIndex b = s.eventIf (indexWraps b) .idxWrap := rfl
@[simp] theorem State.noteVfArg2_eq (x y : Nibble) : s.noteVfArg2 x y = s.eventIf (x == vf || y == vf) .vfArg := rfl
@[simp] theorem State.noteVfArg1_eq (x : Nibble) : s.noteVfArg1 x = s.eventIf (x == vf) .vfArg := rfl
@[simp] theorem State.noteCanon_eq (c : Bool) : s.noteCanon c = s.eventIf c .nonCanon := rfl
@[simp] theorem State.skipIf_eq (c : Bool) : s.skipIf c = s.setPc (if c then s.pc + 2 else s.pc) := rfl
@[simp] theorem State.setFlag_eq (f : Bool) : s.setFlag f = s.setReg vf (flagByte f) := rfl
@[simp] theorem State.setRegFlag_eq (x : Nibble) (r : Byte) (f : Bool) :
    s.setRegFlag x r f = (s.setReg x r).setReg vf (flagByte f) := rfl
@[simp] theorem State.memRead_fst (a : Nat) : (s.memRead a).1 = s.peek a := rfl
@[simp] theorem State.memRead_snd (a : Nat) : (s.memRead a).2 = s.noteAddr a := rfl
@[simp] theorem State.memWrite_eq (a : Nat) (b : Byte) : s.memWrite a b = (s.noteAddr a).poke a b := rfl
theorem State.hostKey_eq : s.hostKey = s.setKey (s.input.keyWrite.getD s.key) := rfl
theorem State.timerTick_eq (tick : Bool) :
    s.timerTick tick = (s.setDt (countDown tick s.dt)).setSt (countDown tick s.st) := rfl
theorem State.endCycle_eq : s.endCycle = (s.timerTick s.input.tick).nextInput := rfl
theorem State.fetch_eq : s.fetch =
    ((s.noteAddr s.pc.toNat).noteAddr (s.pc.toNat + 1)).setOp
      (wordOfBytes (s.peek s.pc.toNat) (s.peek (s.pc.toNat + 1))) := rfl
theorem State.beginCycle_eq : s.beginCycle = s.hostKey.fetch.advance := rfl

/-! ### Reading a register after writing one -/

theorem Nibble.toNat_inj {x y : Nibble} : x.toNat = y.toNat ↔ x = y := BitVec.toNat_inj

@[simp] theorem State.reg_setReg_self (x : Nibble) (b : Byte) : (s.setReg x b).reg x = b := by
  simp [State.reg]

theorem State.reg_setReg (x y : Nibble) (b : Byte) :
    (s.setReg x b).reg y = if y = x then b else s.reg y := by
  simp only [State.reg, State.setReg_v, Vector.getElem_set]
  simp only [BitVec.toNat_inj, eq_comm]

@[simp] theorem State.reg_setReg_ne {x y : Nibble} (h : y ≠ x) (b : Byte) : (s.setReg x b).reg y = s.reg y := by
  simp [State.reg_setReg, h]

end Sys2Proof.Machine
end

