-- ==== Sys2Proof/Laws/Ops.lean ====
section
/-! SUPPORT. One lemma per shared operation, saying everything it does: events, memory accesses, the block
reads and writes, the register block, the stack and the pixels. -/

namespace Sys2Proof.Machine

variable (s : State)

/-! ### Events -/

/-- The bits of EVT after an event: the event's own, if its condition held, and every bit already set. -/
theorem evtWith_bit (c : Bool) (e e' : Event) (evt : Byte) :
    (evtWith c e evt).getLsbD e'.bit = (evt.getLsbD e'.bit || (c && e' == e)) := by
  have : e.mask.getLsbD e'.bit = (e' == e) := by cases e <;> cases e' <;> rfl
  cases c <;> simp [evtWith, this]

@[simp] theorem State.eventIf_false (e : Event) : s.eventIf false e = s := rfl

theorem State.eventIf_or (c d : Bool) (e : Event) :
    (s.eventIf c e).eventIf d e = s.eventIf (c || d) e := by
  cases c <;> cases d <;> simp [State.eventIf, evtWith, BitVec.or_assoc]

theorem State.eventIf_comm (c d : Bool) (e e' : Event) :
    (s.eventIf c e).eventIf d e' = (s.eventIf d e').eventIf c e := by
  cases c <;> cases d <;> simp [State.eventIf, evtWith, BitVec.or_assoc, BitVec.or_comm e.mask]

/-! ### One byte of memory -/

/-- Reading a byte after storing one: the stored byte at the same reduced address, else what was there. -/
theorem State.peek_poke (a c : Nat) (b : Byte) :
    (s.poke a b).peek c = if c % 4096 = a % 4096 then b else s.peek c := by
  simp [State.peek, Memory.read_write]

theorem State.peek_mod (a : Nat) : s.peek (a % 4096) = s.peek a := by
  simp [State.peek]

theorem State.poke_wf (a : Nat) (b : Byte) (h : s.mem.wf = true) : (s.poke a b).mem.wf = true :=
  Memory.wf_write _ _ _ h (Nat.mod_lt _ (by decide))

theorem State.eventIf_poke (c : Bool) (e : Event) (a : Nat) (b : Byte) :
    (s.eventIf c e).poke a b = (s.poke a b).eventIf c e := rfl

/-! ### Reading a block -/

/-- Some access of a block of `n` bytes at `a` is at 4096 or more. -/
def blockWraps (n a : Nat) : Bool := decide (0 < n ∧ 4096 < a + n)

theorem blockWraps_iff (n a : Nat) : blockWraps n a = true ↔ ∃ k, k < n ∧ 4096 ≤ a + k := by
  rw [blockWraps, decide_eq_true_iff]
  constructor
  · rintro ⟨h1, h2⟩; exact ⟨n - 1, by omega, by omega⟩
  · rintro ⟨k, h1, h2⟩; omega

theorem blockWraps_succ (n a : Nat) :
    blockWraps (n + 1) a = (decide (4096 ≤ a) || blockWraps n (a + 1)) := by
  rw [Bool.eq_iff_iff]
  simp only [blockWraps, Bool.or_eq_true, decide_eq_true_eq]
  omega

/-- A block read gives the bytes in order and records ADDR_WRAP when it leaves the address space. -/
theorem State.readBlock_eq (n a : Nat) :
    s.readBlock n a = ((List.range n).map (fun k => s.peek (a + k)), s.eventIf (blockWraps n a) .addrWrap) := by
  induction n generalizing a s with
  | zero => simp [State.readBlock, blockWraps]
  | succ n ih =>
    simp only [State.readBlock, State.memRead_fst, State.memRead_snd, ih, State.noteAddr_eq, State.eventIf_peek,
      State.eventIf_or, ← blockWraps_succ, List.range_succ_eq_map, List.map_cons, List.map_map, Nat.add_zero]
    simp [Function.comp_def, Nat.add_comm 1, Nat.add_assoc]

/-! ### Writing a block -/

/-- The stores of a block write, without their events. -/
def State.pokeBlock : List Byte → Nat → State → State
  | [], _, s => s
  | b :: bs, a, s => State.pokeBlock bs (a + 1) (s.poke a b)

theorem State.pokeBlock_eventIf (bs : List Byte) (a : Nat) (c : Bool) (e : Event) :
    (s.eventIf c e).pokeBlock bs a = (s.pokeBlock bs a).eventIf c e := by
  induction bs generalizing a s with
  | nil => rfl
  | cons b bs ih => simp only [State.pokeBlock, State.eventIf_poke, ih]

/-- A block write is its stores and one ADDR_WRAP when it leaves the address space. -/
theorem State.writeBlock_eq (bs : List Byte) (a : Nat) :
    s.writeBlock bs a = (s.pokeBlock bs a).eventIf (blockWraps bs.length a) .addrWrap := by
  induction bs generalizing a s with
  | nil => simp [State.writeBlock, State.pokeBlock, blockWraps]
  | cons b bs ih =>
    simp only [State.writeBlock, State.pokeBlock, ih, State.memWrite_eq, State.noteAddr_eq, State.eventIf_poke,
      State.pokeBlock_eventIf, State.eventIf_or, List.length_cons, blockWraps_succ]

/-- A store block changes memory alone. -/
theorem State.pokeBlock_frame (bs : List Byte) (a : Nat) :
    s.pokeBlock bs a = { s with mem := (s.pokeBlock bs a).mem } := by
  induction bs generalizing a s with
  | nil => rfl
  | cons b bs ih => simp only [State.pokeBlock]; rw [ih]; rfl

theorem State.pokeBlock_wf (bs : List Byte) (a : Nat) (h : s.mem.wf = true) :
    (s.pokeBlock bs a).mem.wf = true := by
  induction bs generalizing a s with
  | nil => exact h
  | cons b bs ih => exact ih _ _ (State.poke_wf s a b h)

/-- An address outside the block keeps its byte. -/
theorem State.peek_pokeBlock_outside (bs : List Byte) (a c : Nat)
    (h : ∀ k, k < bs.length → c % 4096 ≠ (a + k) % 4096) : (s.pokeBlock bs a).peek c = s.peek c := by
  induction bs generalizing a s with
  | nil => rfl
  | cons b bs ih =>
    simp only [State.pokeBlock]
    rw [ih, State.peek_poke, if_neg (by simpa using h 0 (by simp))]
    intro k hk
    have := h (k + 1) (by simpa using hk)
    rwa [show a + 1 + k = a + (k + 1) by omega]

/-- The bytes of a block that does not meet itself are stored at its addresses. -/
theorem State.peek_pokeBlock_inside (bs : List Byte) (a k : Nat) (hl : bs.length ≤ 4096)
    (hk : k < bs.length) : (s.pokeBlock bs a).peek (a + k) = bs[k] := by
  induction bs generalizing a k s with
  | nil => simp at hk
  | cons b bs ih =>
    simp only [State.pokeBlock]
    simp only [List.length_cons] at hl hk
    cases k with
    | zero =>
      rw [State.peek_pokeBlock_outside, State.peek_poke, if_pos (by simp)]
      · rfl
      · intro j hj
        omega
    | succ k =>
      rw [show a + (k + 1) = a + 1 + k by omega, ih _ (a + 1) k (by omega) (by omega)]
      rfl

/-! ### Writing registers in order -/

theorem ofNat_toNat_nibble (k : Nat) (h : k < 16) : (BitVec.ofNat 4 k).toNat = k := by
  simp [Nat.mod_eq_of_lt h]

/-- A register block changes the general registers alone. -/
theorem State.setRegs_frame (bs : List Byte) (k : Nat) :
    s.setRegs k bs = { s with v := (s.setRegs k bs).v } := by
  induction bs generalizing k s with
  | nil => rfl
  | cons b bs ih => simp only [State.setRegs]; rw [ih]; rfl

/-- Register `r` after `V[k..] <- bytes`. -/
theorem State.reg_setRegs (bs : List Byte) (k : Nat) (r : Nibble) (h : k + bs.length ≤ 16) :
    (s.setRegs k bs).reg r =
      if k ≤ r.toNat ∧ r.toNat < k + bs.length then bs.getD (r.toNat - k) 0 else s.reg r := by
  induction bs generalizing k s with
  | nil =>
    simp only [State.setRegs, List.length_nil]
    rw [if_neg (by omega)]
  | cons b bs ih =>
    simp only [List.length_cons] at h ⊢
    rw [State.setRegs, ih _ (k + 1) (by omega), State.reg_setReg]
    have hr : r = BitVec.ofNat 4 k ↔ r.toNat = k := by
      rw [← BitVec.toNat_inj, ofNat_toNat_nibble k (by omega)]
    by_cases h0 : r.toNat = k
    · rw [if_neg (by omega), if_pos (hr.2 h0), if_pos (by omega), h0]
      simp
    · by_cases h1 : k + 1 ≤ r.toNat ∧ r.toNat < k + 1 + bs.length
      · rw [if_pos h1, if_pos (by omega), show r.toNat - k = (r.toNat - (k + 1)) + 1 by omega]
        simp
      · rw [if_neg h1, if_neg (fun e => h0 (hr.1 e)), if_neg (by omega)]

@[simp] theorem State.regsUpTo_length (x : Nibble) : (s.regsUpTo x).length = x.toNat + 1 := by
  simp [State.regsUpTo]

theorem State.regsUpTo_get (x : Nibble) (k : Nat) (h : k < (s.regsUpTo x).length) :
    (s.regsUpTo x)[k] = s.reg (BitVec.ofNat 4 k) := by
  simp [State.regsUpTo]

/-! ### The call stack -/

/-- A push with room. -/
theorem State.push_room (w : Word) (h : s.sp.val < 16) :
    s.push w = { s with stack := s.stack.set s.sp.val w h, sp := ⟨s.sp.val + 1, by omega⟩ } := by
  simp [State.push, h]

/-- A push on a full stack. -/
theorem State.push_full (w : Word) (h : ¬ s.sp.val < 16) : s.push w = s.event .stkOvf := by
  simp [State.push, h]

/-- A pop with an entry. -/
theorem State.popPc_some (h : s.sp.val ≠ 0) :
    s.popPc = { s with sp := ⟨s.sp.val - 1, by omega⟩, pc := s.stack[s.sp.val - 1]'(by omega) } := by
  simp [State.popPc, h]

/-- A pop of the empty stack. -/
theorem State.popPc_none (h : s.sp.val = 0) : s.popPc = s.event .stkUnf := by
  simp [State.popPc, h]

/-! ### The frame buffer -/

theorem pixelAt_outside (f : FrameBuffer) (x y : Nat) (h : ¬ (x < 64 ∧ y < 32)) : pixelAt f x y = false := by
  unfold pixelAt
  split
  · exact BitVec.getLsbD_of_ge _ _ (by omega)
  · rfl

/-- Reading a pixel after flipping one: only the flipped pixel changes. -/
theorem pixelAt_flipPixel (f : FrameBuffer) (x y x' y' : Nat) (hx : x < 64) (hy : y < 32) :
    pixelAt (flipPixel f x y) x' y' =
      (pixelAt f x' y' ^^ decide (x' = x ∧ y' = y)) := by
  unfold pixelAt flipPixel
  by_cases hy' : y' < 32
  · simp only [hy, hy', dif_pos, Vector.getElem_set]
    by_cases h : y = y'
    · subst h
      simp only [if_true, BitVec.getLsbD_xor, BitVec.getLsbD_twoPow, and_true]
      congr 1
      simp [hx, eq_comm]
    · simp [h, Ne.symm h]
  · have : y' ≠ y := by omega
    simp [hy', this]

@[simp] theorem pixelAt_blankFb (x y : Nat) : pixelAt blankFb x y = false := by
  simp [pixelAt, blankFb]

/-- Two frame buffers with the same pixels are the same. -/
theorem FrameBuffer.ext_pixels (f g : FrameBuffer)
    (h : ∀ x y, x < 64 → y < 32 → pixelAt f x y = pixelAt g x y) : f = g := by
  ext y hy x hx
  have := h x y hx hy
  simpa [pixelAt, hy, ← BitVec.getLsbD_eq_getElem] using this

end Sys2Proof.Machine
end

