-- ==== Sys2Proof/Laws/Draw.lean ====
section
/-! SUPPORT. What drawing a bit, a row and a whole sprite does to the pixels, the collision and the clipping. -/

namespace Sys2Proof.Machine

/-- Pixels after one sprite bit. -/
theorem drawBit_pixel (bit : Bool) (px py x y : Nat) (d : Drawing) (h : onScreen x y) :
    pixelAt (drawBit bit px py d).fb x y = (pixelAt d.fb x y ^^ (bit && decide (x = px ∧ y = py))) := by
  unfold drawBit
  obtain ⟨hx, hy⟩ := h
  cases bit
  · simp
  · by_cases hv : px < 64 ∧ py < 32
    · simp [hv, pixelAt_flipPixel _ _ _ _ _ hv.1 hv.2]
    · have : ¬ (x = px ∧ y = py) := by rintro ⟨rfl, rfl⟩; exact hv ⟨hx, hy⟩
      simp [hv, this]

/-- The collision after one sprite bit. -/
theorem drawBit_hit (bit : Bool) (px py : Nat) (d : Drawing) :
    (drawBit bit px py d).hit = (d.hit || (bit && pixelAt d.fb px py)) := by
  unfold drawBit
  cases bit
  · simp
  · by_cases hv : px < 64 ∧ py < 32
    · simp [hv]
    · simp [hv, pixelAt_outside _ _ _ hv]

/-- The clipping after one sprite bit. -/
theorem drawBit_clipped (bit : Bool) (px py : Nat) (d : Drawing) :
    (drawBit bit px py d).clipped = (d.clipped || (bit && decide (¬ (px < 64 ∧ py < 32)))) := by
  unfold drawBit
  cases bit
  · simp
  · by_cases hv : px < 64 ∧ py < 32
    · simp [hv]
    · simp only [if_true, if_neg hv, Bool.true_and]
      rw [decide_eq_true hv]; simp

/-- The first `n` bits of a row. -/
def drawBits (row : Byte) (x0 py n : Nat) (d : Drawing) : Drawing :=
  (List.range n).foldl (fun d b => drawBit (row.getLsbD (7 - b)) (x0 + b) py d) d

theorem drawBits_succ (row : Byte) (x0 py n : Nat) (d : Drawing) :
    drawBits row x0 py (n + 1) d =
      drawBit (row.getLsbD (7 - n)) (x0 + n) py (drawBits row x0 py n d) := by
  simp [drawBits, List.range_succ]

theorem drawRow_eq (row : Byte) (x0 py : Nat) (d : Drawing) : drawRow row x0 py d = drawBits row x0 py 8 d := rfl

theorem drawBits_pixel (row : Byte) (x0 py n x y : Nat) (d : Drawing) (h : onScreen x y) :
    pixelAt (drawBits row x0 py n d).fb x y =
      (pixelAt d.fb x y ^^ (decide (y = py ∧ x0 ≤ x ∧ x < x0 + n) && row.getLsbD (7 - (x - x0)))) := by
  induction n with
  | zero =>
    have : ¬ (y = py ∧ x0 ≤ x ∧ x < x0 + 0) := by omega
    simp only [this, decide_false, Bool.false_and, Bool.xor_false]
    rfl
  | succ n ih =>
    rw [drawBits_succ, drawBit_pixel _ _ _ _ _ _ h, ih, Bool.xor_assoc]
    congr 1
    by_cases h1 : y = py ∧ x = x0 + n
    · obtain ⟨rfl, rfl⟩ := h1
      simp
    · have h2 : ¬ (x = x0 + n ∧ y = py) := fun e => h1 ⟨e.2, e.1⟩
      have h3 : (y = py ∧ x0 ≤ x ∧ x < x0 + (n + 1)) ↔ (y = py ∧ x0 ≤ x ∧ x < x0 + n) := by omega
      simp [h2, h3]

theorem drawBits_hit (row : Byte) (x0 py n : Nat) (d : Drawing) :
    (drawBits row x0 py n d).hit = true ↔ (d.hit = true ∨
      ∃ b, b < n ∧ row.getLsbD (7 - b) = true ∧ pixelAt d.fb (x0 + b) py = true) := by
  induction n with
  | zero => simp [drawBits]
  | succ n ih =>
    have hp : pixelAt (drawBits row x0 py n d).fb (x0 + n) py = pixelAt d.fb (x0 + n) py := by
      by_cases ho : onScreen (x0 + n) py
      · rw [drawBits_pixel _ _ _ _ _ _ _ ho]; simp
      · rw [pixelAt_outside _ _ _ ho, pixelAt_outside _ _ _ ho]
    rw [drawBits_succ, drawBit_hit, Bool.or_eq_true, ih, hp, Bool.and_eq_true, or_assoc]
    refine or_congr_right ⟨?_, ?_⟩
    · rintro (⟨b, h1, h2⟩ | h)
      · exact ⟨b, by omega, h2⟩
      · exact ⟨n, by omega, h⟩
    · rintro ⟨b, h1, h2⟩
      rcases Nat.lt_succ_iff_lt_or_eq.1 h1 with h | rfl
      · exact .inl ⟨b, h, h2⟩
      · exact .inr h2

theorem drawBits_clipped (row : Byte) (x0 py n : Nat) (d : Drawing) :
    (drawBits row x0 py n d).clipped = true ↔ (d.clipped = true ∨
      ∃ b, b < n ∧ row.getLsbD (7 - b) = true ∧ ¬ onScreen (x0 + b) py) := by
  induction n with
  | zero => simp [drawBits]
  | succ n ih =>
    rw [drawBits_succ, drawBit_clipped, Bool.or_eq_true, ih, Bool.and_eq_true, decide_eq_true_eq, or_assoc]
    refine or_congr_right ⟨?_, ?_⟩
    · rintro (⟨b, h1, h2⟩ | h)
      · exact ⟨b, by omega, h2⟩
      · exact ⟨n, by omega, h⟩
    · rintro ⟨b, h1, h2⟩
      rcases Nat.lt_succ_iff_lt_or_eq.1 h1 with h | rfl
      · exact .inl ⟨b, h, h2⟩
      · exact .inr h2

/-! ### The sprite bit of a list of rows -/

theorem spriteBit_nil (x0 y0 x y : Nat) : spriteBit [] x0 y0 x y = false := by
  have : ¬ (y0 ≤ y ∧ y < y0 + ([] : List Byte).length ∧ x0 ≤ x ∧ x < x0 + 8) := by
    simp only [List.length_nil]; omega
  simp only [spriteBit, this, decide_false, Bool.false_and]

theorem spriteBit_cons (row : Byte) (rows : List Byte) (x0 y0 x y : Nat) :
    spriteBit (row :: rows) x0 y0 x y =
      ((decide (y = y0 ∧ x0 ≤ x ∧ x < x0 + 8) && row.getLsbD (7 - (x - x0))) ||
        spriteBit rows x0 (y0 + 1) x y) := by
  unfold spriteBit
  simp only [List.length_cons]
  by_cases h0 : y = y0
  · subst h0
    have h1 : ¬ (y + 1 ≤ y ∧ y < y + 1 + rows.length ∧ x0 ≤ x ∧ x < x0 + 8) := by omega
    have h2 : (y ≤ y ∧ y < y + (rows.length + 1) ∧ x0 ≤ x ∧ x < x0 + 8) ↔ (y = y ∧ x0 ≤ x ∧ x < x0 + 8) := by
      omega
    simp
  · by_cases h1 : y0 + 1 ≤ y ∧ y < y0 + 1 + rows.length ∧ x0 ≤ x ∧ x < x0 + 8
    · have h2 : y0 ≤ y ∧ y < y0 + (rows.length + 1) ∧ x0 ≤ x ∧ x < x0 + 8 := by omega
      have h3 : y - y0 = (y - (y0 + 1)) + 1 := by omega
      simp [h0, h1, h2, h3]
    · have h2 : ¬ (y0 ≤ y ∧ y < y0 + (rows.length + 1) ∧ x0 ≤ x ∧ x < x0 + 8) := by omega
      simp only [h0, h1, h2, decide_false, false_and, Bool.false_and, Bool.or_false]

/-- The rows below a row have no bit in it. -/
theorem spriteBit_above (rows : List Byte) (x0 y0 x : Nat) : spriteBit rows x0 (y0 + 1) x y0 = false := by
  have : ¬ (y0 + 1 ≤ y0 ∧ y0 < y0 + 1 + rows.length ∧ x0 ≤ x ∧ x < x0 + 8) := by omega
  simp only [spriteBit, this, decide_false, Bool.false_and]

/-! ### The whole sprite -/

/-- A visible pixel after the draw: its old value, flipped where the sprite has a set bit (R221). -/
theorem drawRows_pixel (rows : List Byte) (x0 y0 x y : Nat) (d : Drawing) (h : onScreen x y) :
    pixelAt (drawRows rows x0 y0 d).fb x y = (pixelAt d.fb x y ^^ spriteBit rows x0 y0 x y) := by
  induction rows generalizing y0 d with
  | nil => simp [drawRows, spriteBit_nil]
  | cons row rows ih =>
    rw [drawRows, ih, drawRow_eq, drawBits_pixel _ _ _ _ _ _ _ h, Bool.xor_assoc, spriteBit_cons]
    congr 1
    by_cases hy : y = y0
    · subst hy
      rw [spriteBit_above]; simp
    · simp [hy]

/-- A collision: a visible pixel that was on and whose sprite bit is set (R225). -/
theorem drawRows_hit (rows : List Byte) (x0 y0 : Nat) (d : Drawing) :
    (drawRows rows x0 y0 d).hit = true ↔ (d.hit = true ∨
      ∃ x y, onScreen x y ∧ spriteBit rows x0 y0 x y = true ∧ pixelAt d.fb x y = true) := by
  induction rows generalizing y0 d with
  | nil => simp [drawRows, spriteBit_nil]
  | cons row rows ih =>
    rw [drawRows, ih, drawRow_eq, drawBits_hit, or_assoc]
    refine or_congr_right ⟨?_, ?_⟩
    · rintro (⟨b, h1, h2, h3⟩ | ⟨x, y, ho, h1, h2⟩)
      · refine ⟨x0 + b, y0, ?_, ?_, h3⟩
        · by_contra ho; rw [pixelAt_outside _ _ _ ho] at h3; cases h3
        · rw [spriteBit_cons]
          have : x0 + b < x0 + 8 := by omega
          simp [this, h2]
      · refine ⟨x, y, ho, by rw [spriteBit_cons, h1]; simp, ?_⟩
        rw [drawBits_pixel _ _ _ _ _ _ _ ho] at h2
        have hy : ¬ (y = y0 ∧ x0 ≤ x ∧ x < x0 + 8) := by
          rintro ⟨rfl, -⟩
          rw [spriteBit_above] at h1
          cases h1
        simpa only [hy, decide_false, Bool.false_and, Bool.xor_false] using h2
    · rintro ⟨x, y, ho, h1, h2⟩
      rw [spriteBit_cons, Bool.or_eq_true, Bool.and_eq_true, decide_eq_true_eq] at h1
      rcases h1 with ⟨⟨rfl, h3, h4⟩, h5⟩ | h1
      · exact .inl ⟨x - x0, by omega, h5, by rwa [show x0 + (x - x0) = x by omega]⟩
      · refine .inr ⟨x, y, ho, h1, ?_⟩
        rw [drawBits_pixel _ _ _ _ _ _ _ ho]
        have hy : ¬ (y = y0 ∧ x0 ≤ x ∧ x < x0 + 8) := by
          rintro ⟨rfl, -⟩
          rw [spriteBit_above] at h1
          cases h1
        simpa only [hy, decide_false, Bool.false_and, Bool.xor_false] using h2

/-- A clipped bit: a set sprite bit past the right or bottom edge (R224). -/
theorem drawRows_clipped (rows : List Byte) (x0 y0 : Nat) (d : Drawing) :
    (drawRows rows x0 y0 d).clipped = true ↔ (d.clipped = true ∨
      ∃ x y, ¬ onScreen x y ∧ spriteBit rows x0 y0 x y = true) := by
  induction rows generalizing y0 d with
  | nil => simp [drawRows, spriteBit_nil]
  | cons row rows ih =>
    rw [drawRows, ih, drawRow_eq, drawBits_clipped, or_assoc]
    refine or_congr_right ⟨?_, ?_⟩
    · rintro (⟨b, h1, h2, h3⟩ | ⟨x, y, ho, h1⟩)
      · refine ⟨x0 + b, y0, h3, ?_⟩
        rw [spriteBit_cons]
        have : x0 + b < x0 + 8 := by omega
        simp [this, h2]
      · exact ⟨x, y, ho, by rw [spriteBit_cons, h1]; simp⟩
    · rintro ⟨x, y, ho, h1⟩
      rw [spriteBit_cons, Bool.or_eq_true, Bool.and_eq_true, decide_eq_true_eq] at h1
      rcases h1 with ⟨⟨rfl, h3, h4⟩, h5⟩ | h1
      · exact .inl ⟨x - x0, by omega, h5, by rwa [show x0 + (x - x0) = x by omega]⟩
      · exact .inr ⟨x, y, ho, h1⟩

end Sys2Proof.Machine
end

