-- ==== Sys2Proof/Laws/Exec.lean ====
section
/-! SUPPORT. Executing one instruction: the meanings that use a block access, with the block worked out, and
what `OnlyChanges` and `Records` say of the updates of the state. -/

namespace Sys2Proof.Machine

variable (s : State)

/-! ### Meanings that use a block access -/

/-- DRW with its block read worked out. -/
theorem execDrw_eq (x y n : Nibble) :
    execDrw x y n s =
      let d := drawRows (s.sprite n) ((s.reg x).toNat % 64) ((s.reg y).toNat % 32) ⟨s.fb, false, false⟩
      .next (((((s.eventIf (x == vf || y == vf) .vfArg).eventIf (blockWraps n.toNat s.i.toNat) .addrWrap).setFb
        d.fb).eventIf d.clipped .clip).setReg vf (flagByte d.hit)) := by
  simp only [execDrw, State.readBlock_eq]
  rfl

/-- LD B, Vx with its block write worked out. -/
theorem execLdB_eq (x : Nibble) :
    execLdB x s = .next ((s.pokeBlock (bcdDigits (s.reg x)) s.i.toNat).eventIf
      (blockWraps 3 s.i.toNat) .addrWrap) := by
  simp only [execLdB, State.writeBlock_eq]
  rfl

/-- LD [I], Vx with its block write worked out. -/
theorem execStoreRegs_eq (x : Nibble) :
    execStoreRegs x s = .next ((s.pokeBlock (s.regsUpTo x) s.i.toNat).eventIf
      (blockWraps (x.toNat + 1) s.i.toNat) .addrWrap) := by
  simp only [execStoreRegs, State.writeBlock_eq, State.regsUpTo_length]
  rfl

/-- LD Vx, [I] with its block read worked out. -/
theorem execLoadRegs_eq (x : Nibble) :
    execLoadRegs x s = .next ((s.eventIf (blockWraps (x.toNat + 1) s.i.toNat) .addrWrap).setRegs 0
      ((List.range (x.toNat + 1)).map fun k => s.peek (s.i.toNat + k))) := by
  simp only [execLoadRegs, State.readBlock_eq]
  rfl

/-! ### Frames -/

theorem OnlyChanges.refl (w : Set Element) : OnlyChanges w s s := by
  intro e _; cases e <;> rfl

theorem OnlyChanges.mono {w w' : Set Element} {s t : State} (h : OnlyChanges w s t) (hw : w ⊆ w') :
    OnlyChanges w' s t := fun e he => h e fun hc => he (hw hc)

theorem Element.same.trans {e : Element} {s t u : State} (h : e.same s t) (h' : e.same t u) : e.same s u := by
  cases e <;> exact Eq.trans h' h

theorem OnlyChanges.trans {w : Set Element} {s t u : State} (h : OnlyChanges w s t) (h' : OnlyChanges w t u) :
    OnlyChanges w s u := fun e he => (h e he).trans (h' e he)

theorem OnlyChanges.eventIf (c : Bool) (e : Event) : OnlyChanges {.evt} s (s.eventIf c e) := by
  intro d hd; cases d <;> first | rfl | exact absurd rfl hd

theorem OnlyChanges.setReg (x : Nibble) (b : Byte) : OnlyChanges {.reg x} s (s.setReg x b) := by
  intro d hd
  cases d with
  | reg y => exact State.reg_setReg_ne s (fun h => hd (by simp [h])) b
  | _ => rfl

theorem OnlyChanges.setPc (w : Word) : OnlyChanges {.pc} s (s.setPc w) := by
  intro d hd; cases d <;> first | rfl | exact absurd rfl hd

theorem OnlyChanges.setI (w : Word) : OnlyChanges {.i} s (s.setI w) := by
  intro d hd; cases d <;> first | rfl | exact absurd rfl hd

theorem OnlyChanges.setDt (b : Byte) : OnlyChanges {.dt} s (s.setDt b) := by
  intro d hd; cases d <;> first | rfl | exact absurd rfl hd

theorem OnlyChanges.setSt (b : Byte) : OnlyChanges {.st} s (s.setSt b) := by
  intro d hd; cases d <;> first | rfl | exact absurd rfl hd

theorem OnlyChanges.setFb (f : FrameBuffer) : OnlyChanges allPixels s (s.setFb f) := by
  intro d hd
  cases d with
  | pixel x y => exact absurd ⟨x, y, rfl⟩ hd
  | _ => rfl

theorem byteAt_ne {a : Fin 4096} {c : Nat} (h : Element.byte a ≠ byteAt c) : a.val % 4096 ≠ c % 4096 := by
  intro e
  refine h ?_
  simp only [byteAt, Element.byte.injEq]
  apply Fin.ext
  have := a.isLt
  simp only [Fin.val_ofNat]
  omega

theorem OnlyChanges.pokeBlock (bs : List Byte) (a : Nat) :
    OnlyChanges (blockBytes a bs.length) s (s.pokeBlock bs a) := by
  intro d hd
  have hf := State.pokeBlock_frame s bs a
  cases d with
  | byte c =>
    refine State.peek_pokeBlock_outside s bs a c fun k hk => byteAt_ne fun h => hd ⟨k, hk, h⟩
  | _ => rw [hf]; rfl

/-! ### Events -/

theorem State.evtBit_eventIf (c : Bool) (e e' : Event) :
    (s.eventIf c e).evtBit e' = (s.evtBit e' || (c && e' == e)) := evtWith_bit c e e' s.evt

theorem Records.of_evt {s t : State} {p : Event → Prop} {b : Event → Bool}
    (h : ∀ e, t.evtBit e = (s.evtBit e || b e)) (hb : ∀ e, b e = true ↔ p e) : Records p s t := by
  intro e; rw [h, Bool.or_eq_true, hb]

/-! ### The lowest pressed key -/

theorem lowestKey_some {key : Word} {k : Nat} (hk : k < 16) (h : key.getLsbD k = true)
    (hl : ∀ j, j < k → key.getLsbD j = false) : lowestKey key = some k := by
  rw [lowestKey, List.find?_range_eq_some]
  exact ⟨h, by simpa using hk, fun j hj => by simp [hl j hj]⟩

theorem lowestKey_zero : lowestKey 0#16 = none := by decide

/-- Some key is the lowest pressed one, unless none is pressed. -/
theorem lowestKey_cases (key : Word) :
    (key = 0 ∧ lowestKey key = none) ∨
      ∃ k, k < 16 ∧ key.getLsbD k = true ∧ (∀ j, j < k → key.getLsbD j = false) ∧ lowestKey key = some k := by
  cases h : lowestKey key with
  | some k =>
    rw [lowestKey, List.find?_range_eq_some] at h
    exact .inr ⟨k, by simpa using h.2.1, h.1, fun j hj => by simpa using h.2.2 j hj, rfl⟩
  | none =>
    refine .inl ⟨?_, rfl⟩
    rw [lowestKey, List.find?_range_eq_none] at h
    ext i hi
    rw [← BitVec.getLsbD_eq_getElem]
    simpa using h i hi

end Sys2Proof.Machine
end

