-- ==== Sys2Proof/Laws/PerInstr.lean ====
section
/-! SUPPORT. The laws that hold of every instruction, one lemma per constructor. -/

namespace Sys2Proof.Laws.MatchesRow

/-- The opcode of a well-formed instruction matches the mask and the pattern of its own row of
spec/opcode_table.json. -/
def Statement (i : Instr) : Prop :=
  i.wellFormed = true →
    (opcodeTable.find? (fun r => r.mnemonic == i.mnemonic)).map (fun r => r.accepts (encode i)) = some true

/-- The row of a mnemonic, and what is left to show: its mask and pattern fit the encoding. -/
theorem of_row {i : Instr} (r : OpcodeRow)
    (hr : opcodeTable.find? (fun r => r.mnemonic == i.mnemonic) = some r) (h : encode i &&& r.mask = r.pattern) :
    Statement i := by
  intro _
  rw [hr, Option.map_some, OpcodeRow.accepts, beq_iff_eq.2 h]

theorem cls (dc : Byte) : Statement (.cls dc) :=
  of_row ⟨"CLS", 0xF00F#16, 0x0000#16⟩ rfl (by rw [and_F00F]; simp [encode])

theorem ret (dc : Byte) : Statement (.ret dc) :=
  of_row ⟨"RET", 0xF00F#16, 0x000E#16⟩ rfl (by rw [and_F00F]; simp [encode])

theorem jp (nnn : Addr) : Statement (.jp nnn) :=
  of_row ⟨"JP_nnn", 0xF000#16, 0x1000#16⟩ rfl (by rw [and_F000]; simp [encode])

theorem call (nnn : Addr) : Statement (.call nnn) :=
  of_row ⟨"CALL_nnn", 0xF000#16, 0x2000#16⟩ rfl (by rw [and_F000]; simp [encode])

theorem seImm (x : Nibble) (kk : Byte) : Statement (.seImm x kk) :=
  of_row ⟨"SE_Vx__kk", 0xF000#16, 0x3000#16⟩ rfl (by rw [and_F000]; simp [encode])

theorem sneImm (x : Nibble) (kk : Byte) : Statement (.sneImm x kk) :=
  of_row ⟨"SNE_Vx__kk", 0xF000#16, 0x4000#16⟩ rfl (by rw [and_F000]; simp [encode])

theorem seReg (x y n : Nibble) : Statement (.seReg x y n) :=
  of_row ⟨"SE_Vx__Vy", 0xF000#16, 0x5000#16⟩ rfl (by rw [and_F000]; simp [encode])

theorem ldImm (x : Nibble) (kk : Byte) : Statement (.ldImm x kk) :=
  of_row ⟨"LD_Vx__kk", 0xF000#16, 0x6000#16⟩ rfl (by rw [and_F000]; simp [encode])

theorem addImm (x : Nibble) (kk : Byte) : Statement (.addImm x kk) :=
  of_row ⟨"ADD_Vx__kk", 0xF000#16, 0x7000#16⟩ rfl (by rw [and_F000]; simp [encode])

theorem ldReg (x y : Nibble) : Statement (.ldReg x y) :=
  of_row ⟨"LD_Vx__Vy", 0xF00F#16, 0x8000#16⟩ rfl (by rw [and_F00F]; simp [encode])

theorem orReg (x y : Nibble) : Statement (.orReg x y) :=
  of_row ⟨"OR_Vx__Vy", 0xF00F#16, 0x8001#16⟩ rfl (by rw [and_F00F]; simp [encode])

theorem andReg (x y : Nibble) : Statement (.andReg x y) :=
  of_row ⟨"AND_Vx__Vy", 0xF00F#16, 0x8002#16⟩ rfl (by rw [and_F00F]; simp [encode])

theorem xorReg (x y : Nibble) : Statement (.xorReg x y) :=
  of_row ⟨"XOR_Vx__Vy", 0xF00F#16, 0x8003#16⟩ rfl (by rw [and_F00F]; simp [encode])

theorem addReg (x y : Nibble) : Statement (.addReg x y) :=
  of_row ⟨"ADD_Vx__Vy", 0xF00F#16, 0x8004#16⟩ rfl (by rw [and_F00F]; simp [encode])

theorem subReg (x y : Nibble) : Statement (.subReg x y) :=
  of_row ⟨"SUB_Vx__Vy", 0xF00F#16, 0x8005#16⟩ rfl (by rw [and_F00F]; simp [encode])

theorem shr (x y : Nibble) : Statement (.shr x y) :=
  of_row ⟨"SHR_Vx", 0xF00F#16, 0x8006#16⟩ rfl (by rw [and_F00F]; simp [encode])

theorem subn (x y : Nibble) : Statement (.subn x y) :=
  of_row ⟨"SUBN_Vx__Vy", 0xF00F#16, 0x8007#16⟩ rfl (by rw [and_F00F]; simp [encode])

theorem shl (x y : Nibble) : Statement (.shl x y) :=
  of_row ⟨"SHL_Vx", 0xF00F#16, 0x800E#16⟩ rfl (by rw [and_F00F]; simp [encode])

theorem sneReg (x y n : Nibble) : Statement (.sneReg x y n) :=
  of_row ⟨"SNE_Vx__Vy", 0xF000#16, 0x9000#16⟩ rfl (by rw [and_F000]; simp [encode])

theorem ldI (nnn : Addr) : Statement (.ldI nnn) :=
  of_row ⟨"LD_I__nnn", 0xF000#16, 0xA000#16⟩ rfl (by rw [and_F000]; simp [encode])

theorem jpV0 (nnn : Addr) : Statement (.jpV0 nnn) :=
  of_row ⟨"JP_V0__nnn", 0xF000#16, 0xB000#16⟩ rfl (by rw [and_F000]; simp [encode])

theorem rnd (x : Nibble) (kk : Byte) : Statement (.rnd x kk) :=
  of_row ⟨"RND_Vx__kk", 0xF000#16, 0xC000#16⟩ rfl (by rw [and_F000]; simp [encode])

theorem drw (x y n : Nibble) : Statement (.drw x y n) :=
  of_row ⟨"DRW_Vx__Vy__n", 0xF000#16, 0xD000#16⟩ rfl (by rw [and_F000]; simp [encode])

theorem skp (x m : Nibble) : Statement (.skp x m) :=
  of_row ⟨"SKP_Vx", 0xF00F#16, 0xE00E#16⟩ rfl (by rw [and_F00F]; simp [encode])

theorem sknp (x m : Nibble) : Statement (.sknp x m) :=
  of_row ⟨"SKNP_Vx", 0xF00F#16, 0xE001#16⟩ rfl (by rw [and_F00F]; simp [encode])

theorem ldVxDt (x : Nibble) : Statement (.ldVxDt x) :=
  of_row ⟨"LD_Vx__DT", 0xF0FF#16, 0xF007#16⟩ rfl (by rw [and_F0FF]; simp [encode])

theorem ldVxK (x : Nibble) : Statement (.ldVxK x) :=
  of_row ⟨"LD_Vx__K", 0xF0FF#16, 0xF00A#16⟩ rfl (by rw [and_F0FF]; simp [encode])

theorem ldDtVx (x : Nibble) : Statement (.ldDtVx x) :=
  of_row ⟨"LD_DT__Vx", 0xF0FF#16, 0xF015#16⟩ rfl (by rw [and_F0FF]; simp [encode])

theorem ldStVx (x : Nibble) : Statement (.ldStVx x) :=
  of_row ⟨"LD_ST__Vx", 0xF0FF#16, 0xF018#16⟩ rfl (by rw [and_F0FF]; simp [encode])

theorem addI (x : Nibble) : Statement (.addI x) :=
  of_row ⟨"ADD_I__Vx", 0xF0FF#16, 0xF01E#16⟩ rfl (by rw [and_F0FF]; simp [encode])

theorem ldF (x : Nibble) : Statement (.ldF x) :=
  of_row ⟨"LD_F__Vx", 0xF0FF#16, 0xF029#16⟩ rfl (by rw [and_F0FF]; simp [encode])

theorem ldB (x : Nibble) : Statement (.ldB x) :=
  of_row ⟨"LD_B__Vx", 0xF0FF#16, 0xF033#16⟩ rfl (by rw [and_F0FF]; simp [encode])

theorem storeRegs (x : Nibble) : Statement (.storeRegs x) :=
  of_row ⟨"LD__I___Vx", 0xF0FF#16, 0xF055#16⟩ rfl (by rw [and_F0FF]; simp [encode])

theorem loadRegs (x : Nibble) : Statement (.loadRegs x) :=
  of_row ⟨"LD_Vx___I", 0xF0FF#16, 0xF065#16⟩ rfl (by rw [and_F0FF]; simp [encode])

theorem sys (nnn : Addr) : Statement (.sys nnn) :=
  of_row ⟨"SYS_nnn", 0xF000#16, 0x0000#16⟩ rfl (by rw [and_F000]; simp [encode])

theorem unmapped (op : Word) : Statement (.unmapped op) :=
  of_row ⟨"(unmapped)", 0x0000#16, 0x0000#16⟩ rfl (by simp)

end Sys2Proof.Laws.MatchesRow
end

