-- ==== Sys2Proof/Laws/Step.lean ====
section
/-! SUPPORT. One step in terms of execute. -/

namespace Sys2Proof.Machine

/-- The opcode execute sees is the one at PC. -/
@[simp] theorem State.beginCycle_op (s : State) : s.beginCycle.op = s.nextOpcode := rfl

/-- The state execute starts from: KEY as the host left it, OP fetched, PC advanced, ADDR_WRAP recorded if the
fetch left the address space. -/
theorem State.beginCycle_spec (s : State) :
    s.beginCycle =
      { s with
        key := s.input.keyWrite.getD s.key
        op := s.nextOpcode
        pc := s.pc + 2
        evt := evtWith (blockWraps 2 s.pc.toNat) .addrWrap s.evt } := by
  have h : ((s.hostKey.noteAddr s.pc.toNat).noteAddr (s.pc.toNat + 1)) =
      s.hostKey.eventIf (blockWraps 2 s.pc.toNat) .addrWrap := by
    rw [State.noteAddr_eq, State.noteAddr_eq, State.eventIf_or]
    congr 1
    rw [Bool.eq_iff_iff]
    simp only [blockWraps, Bool.or_eq_true, decide_eq_true_eq]
    omega
  show (((s.hostKey.noteAddr s.pc.toNat).noteAddr (s.pc.toNat + 1)).setOp _).advance = _
  rw [h]
  rfl

/-! ### The elements after the beginning and the end of a cycle -/

@[simp] theorem State.beginCycle_v (s : State) : s.beginCycle.v = s.v := by
  rw [State.beginCycle_spec]
@[simp] theorem State.beginCycle_i (s : State) : s.beginCycle.i = s.i := by
  rw [State.beginCycle_spec]
@[simp] theorem State.beginCycle_pc (s : State) : s.beginCycle.pc = s.pc + 2 := by
  rw [State.beginCycle_spec]
@[simp] theorem State.beginCycle_sp (s : State) : s.beginCycle.sp = s.sp := by
  rw [State.beginCycle_spec]
@[simp] theorem State.beginCycle_stack (s : State) : s.beginCycle.stack = s.stack := by
  rw [State.beginCycle_spec]
@[simp] theorem State.beginCycle_dt (s : State) : s.beginCycle.dt = s.dt := by
  rw [State.beginCycle_spec]
@[simp] theorem State.beginCycle_st (s : State) : s.beginCycle.st = s.st := by
  rw [State.beginCycle_spec]
@[simp] theorem State.beginCycle_mem (s : State) : s.beginCycle.mem = s.mem := by
  rw [State.beginCycle_spec]
@[simp] theorem State.beginCycle_fb (s : State) : s.beginCycle.fb = s.fb := by
  rw [State.beginCycle_spec]
@[simp] theorem State.beginCycle_key (s : State) : s.beginCycle.key = s.input.keyWrite.getD s.key := by
  rw [State.beginCycle_spec]
@[simp] theorem State.beginCycle_evt (s : State) : s.beginCycle.evt = evtWith (blockWraps 2 s.pc.toNat) .addrWrap s.evt := by
  rw [State.beginCycle_spec]
@[simp] theorem State.beginCycle_inputs (s : State) : s.beginCycle.inputs = s.inputs := by
  rw [State.beginCycle_spec]
@[simp] theorem State.beginCycle_cycleNo (s : State) : s.beginCycle.cycleNo = s.cycleNo := by
  rw [State.beginCycle_spec]
@[simp] theorem State.beginCycle_reg (s : State) (x : Nibble) : s.beginCycle.reg x = s.reg x := by
  rw [State.beginCycle_spec]; rfl
@[simp] theorem State.beginCycle_peek (s : State) (a : Nat) : s.beginCycle.peek a = s.peek a := by
  rw [State.beginCycle_spec]; rfl
@[simp] theorem State.beginCycle_input (s : State) : s.beginCycle.input = s.input := by
  rw [State.beginCycle_spec]; rfl

@[simp] theorem State.endCycle_v (s : State) : s.endCycle.v = s.v := rfl
@[simp] theorem State.endCycle_i (s : State) : s.endCycle.i = s.i := rfl
@[simp] theorem State.endCycle_pc (s : State) : s.endCycle.pc = s.pc := rfl
@[simp] theorem State.endCycle_sp (s : State) : s.endCycle.sp = s.sp := rfl
@[simp] theorem State.endCycle_stack (s : State) : s.endCycle.stack = s.stack := rfl
@[simp] theorem State.endCycle_dt (s : State) : s.endCycle.dt = countDown s.input.tick s.dt := rfl
@[simp] theorem State.endCycle_st (s : State) : s.endCycle.st = countDown s.input.tick s.st := rfl
@[simp] theorem State.endCycle_mem (s : State) : s.endCycle.mem = s.mem := rfl
@[simp] theorem State.endCycle_fb (s : State) : s.endCycle.fb = s.fb := rfl
@[simp] theorem State.endCycle_key (s : State) : s.endCycle.key = s.key := rfl
@[simp] theorem State.endCycle_evt (s : State) : s.endCycle.evt = s.evt := rfl
@[simp] theorem State.endCycle_op (s : State) : s.endCycle.op = s.op := rfl
@[simp] theorem State.endCycle_inputs (s : State) : s.endCycle.inputs = s.inputs.tail := rfl
@[simp] theorem State.endCycle_cycleNo (s : State) : s.endCycle.cycleNo = s.cycleNo + 1 := rfl
@[simp] theorem State.endCycle_reg (s : State) (x : Nibble) : s.endCycle.reg x = s.reg x := rfl
@[simp] theorem State.endCycle_peek (s : State) (a : Nat) : s.endCycle.peek a = s.peek a := rfl

/-- A timer's count after the tick step, as a number: one lower when the tick came, never below zero. -/
theorem countDown_toNat (tick : Bool) (b : Byte) : (countDown tick b).toNat = b.toNat - tick.toNat := by
  unfold countDown
  split
  · rename_i h; subst h; simp
  · rename_i h
    have hb : b.toNat ≠ 0 := fun e => h (BitVec.eq_of_toNat_eq e)
    have := b.isLt
    cases tick
    · simp
    · simp only [if_true, BitVec.toNat_sub, Bool.toNat_true]
      have h1 : (1 : Byte).toNat = 1 := rfl
      omega

/-- A step whose instruction completes. -/
theorem step_of_exec {s t : State} (h : exec (decodeWord s.nextOpcode) s.beginCycle = .next t) :
    step s = .next t.endCycle := by
  simp only [step, State.beginCycle_op, h]

/-- What a completed step is made of. -/
theorem step_cases {s u : State} (h : step s = .next u) :
    ∃ t, exec (decodeWord s.nextOpcode) s.beginCycle = .next t ∧ u = t.endCycle := by
  simp only [step, State.beginCycle_op] at h
  split at h
  · rename_i t ht
    exact ⟨t, ht, by simpa using h.symm⟩
  · cases h
  · cases h

end Sys2Proof.Machine
end

