-- ==== Sys2Proof/Laws/Ports.lean ====
section
/-! SUPPORT. The block's ports: the three outcomes of a clock, the host's writes, and the program load. -/

namespace Sys2Proof.Machine

variable (s : State)

theorem portStep_rst {p : Ports} (h : p.rst = true) : portStep p s = .next s.hostReset := by
  simp only [portStep, h, if_true]

theorem portStep_cycle {p : Ports} (h : p.rst = false) (hc : p.cycle = true) :
    portStep p s = step ((s.hostWrites p).present p.tick p.rnd) := by
  simp only [portStep, h, hc, Bool.false_eq_true, if_false, if_true]

theorem portStep_idle {p : Ports} (h : p.rst = false) (hc : p.cycle = false) :
    portStep p s = .next (s.hostWrites p) := by
  simp only [portStep, h, hc, Bool.false_eq_true, if_false]

/-- The host's writes change memory and KEY alone. -/
theorem State.hostWrites_eq (p : Ports) :
    s.hostWrites p =
      { s with
        mem := (p.memWrite.elim s fun w => s.poke w.1.toNat w.2).mem
        key := p.keyWrite.getD s.key } := by
  unfold State.hostWrites
  cases p.memWrite <;> cases p.keyWrite <;> rfl

@[simp] theorem State.present_input (tick : Bool) (rnd : Byte) : (s.present tick rnd).input = ⟨tick, rnd, none⟩ := rfl
@[simp] theorem State.present_key (tick : Bool) (rnd : Byte) : (s.present tick rnd).key = s.key := rfl
@[simp] theorem State.present_peek (tick : Bool) (rnd : Byte) (a : Nat) : (s.present tick rnd).peek a = s.peek a := rfl

/-- A load inside the address space is the stores of its bytes. -/
theorem State.loadBytes_eq (image : List Byte) (a : Nat) (h : a + image.length ≤ 4096) :
    s.loadBytes image a = s.pokeBlock image a := by
  induction image generalizing a s with
  | nil => rfl
  | cons b bs ih =>
    simp only [List.length_cons] at h
    have ha : (BitVec.ofNat 12 a).toNat = a := by
      rw [BitVec.toNat_ofNat]; exact Nat.mod_eq_of_lt (by omega)
    simp only [State.loadBytes, State.pokeBlock, State.hostLoad, ha]
    exact ih _ _ (by omega)

end Sys2Proof.Machine
end

