-- ==== Sys2Proof/Tests/Slice0.lean ====
section
/-! SUPPORT. Own tests: ill-formed terms refused, one word of every constructor decoded, one-step vectors of
spec/95_test_vectors.md (the id is in each comment), and a witness for the hypotheses of every obligation. -/

namespace Sys2Proof.Tests

open Sys2Proof.Machine

/-! ### Helpers -/

/-- A state whose next instruction is the opcode `op` at `pc`, with this cycle's `tick` and `rnd` and no host
write of KEY. -/
def atWith (tick : Bool) (rnd : Byte) (pc : Word) (op : Nat) (s : State) : State :=
  ({ s with pc := pc, inputs := [⟨tick, rnd, none⟩] } : State).placeOpcode 16 op

/-- The vectors' usual cycle: no tick, random byte 0. -/
def at_ (pc : Word) (op : Nat) (s : State) : State := atWith false 0x00#8 pc op s

/-- Reset with some registers set. -/
def regs (l : List (Nibble × Byte)) (s : State) : State := l.foldl (fun s r => s.setReg r.1 r.2) s

/-- Bytes put into memory. -/
def bytes (a : Nat) (l : List Byte) (s : State) : State := s.loadBytes l a

/-- A pixel turned on. -/
def lit (x y : Nat) (s : State) : State := s.setFb (flipPixel s.fb x y)

/-- One step answers a next state of which `p` holds. -/
def after (s : State) (p : State → Bool) : Bool :=
  match step s with
  | .next t => p t
  | .fault _ => false
  | .refused _ => false

/-- The instruction answers a next state of which `p` holds. -/
def afterExec (i : Instr) (s : State) (p : State → Bool) : Bool :=
  match exec i s with
  | .next t => p t
  | .fault _ => false
  | .refused _ => false

abbrev r0 : State := State.reset

/-! ### Well-formedness: an ill-formed term for each check -/

theorem test_wf_sys_low_nibble_0 : (Instr.sys 0x120#12).wellFormed = false := by decide
theorem test_wf_sys_low_nibble_E : (Instr.sys 0x12E#12).wellFormed = false := by decide
theorem test_wf_unmapped_mapped_8 : (Instr.unmapped 0x8014#16).wellFormed = false := by decide
theorem test_wf_unmapped_mapped_E : (Instr.unmapped 0xE39E#16).wellFormed = false := by decide
theorem test_wf_unmapped_mapped_F : (Instr.unmapped 0xF007#16).wellFormed = false := by decide
theorem test_wf_unmapped_other_family : (Instr.unmapped 0x1234#16).wellFormed = false := by decide

/-! ### One word of every constructor, written bit by bit from 30_encoding.md R105 -/

/-- The word `w` decodes to `i`, and `i` encodes to `w`. -/
def reads (w : Nat) (i : Instr) : Bool := decodeTableWord 16 w == some i && encode i == BitVec.ofNat 16 w

theorem test_decode_cls : reads 0b0000000011100000 (.cls 0x0E) = true := by decide
theorem test_decode_cls_noncanonical : reads 0b0000000000000000 (.cls 0x00) = true := by decide
theorem test_decode_ret : reads 0b0000000011101110 (.ret 0x0E) = true := by decide
theorem test_decode_sys : reads 0b0000000100100011 (.sys 0x123) = true := by decide
theorem test_decode_jp : reads 0b0001001000110100 (.jp 0x234) = true := by decide
theorem test_decode_call : reads 0b0010001000010000 (.call 0x210) = true := by decide
theorem test_decode_se_imm : reads 0b0011000000000101 (.seImm 0x0 0x05) = true := by decide
theorem test_decode_sne_imm : reads 0b0100101111110000 (.sneImm 0xB 0xF0) = true := by decide
theorem test_decode_se_reg : reads 0b0101000100100000 (.seReg 0x1 0x2 0x0) = true := by decide
theorem test_decode_ld_imm : reads 0b0110101000000010 (.ldImm 0xA 0x02) = true := by decide
theorem test_decode_add_imm : reads 0b0111000000000011 (.addImm 0x0 0x03) = true := by decide
theorem test_decode_ld_reg : reads 0b1000000100110000 (.ldReg 0x1 0x3) = true := by decide
theorem test_decode_or : reads 0b1000000100100001 (.orReg 0x1 0x2) = true := by decide
theorem test_decode_and : reads 0b1000000100100010 (.andReg 0x1 0x2) = true := by decide
theorem test_decode_xor : reads 0b1000000100100011 (.xorReg 0x1 0x2) = true := by decide
theorem test_decode_add_reg : reads 0b1000000100100100 (.addReg 0x1 0x2) = true := by decide
theorem test_decode_sub : reads 0b1000000100100101 (.subReg 0x1 0x2) = true := by decide
theorem test_decode_shr : reads 0b1000000100100110 (.shr 0x1 0x2) = true := by decide
theorem test_decode_subn : reads 0b1000000100100111 (.subn 0x1 0x2) = true := by decide
theorem test_decode_shl : reads 0b1000000100101110 (.shl 0x1 0x2) = true := by decide
theorem test_decode_sne_reg : reads 0b1001000100100000 (.sneReg 0x1 0x2 0x0) = true := by decide
theorem test_decode_ld_i : reads 0b1010001100000000 (.ldI 0x300) = true := by decide
theorem test_decode_jp_v0 : reads 0b1011111110000000 (.jpV0 0xF80) = true := by decide
theorem test_decode_rnd : reads 0b1100001100001111 (.rnd 0x3 0x0F) = true := by decide
theorem test_decode_drw : reads 0b1101000000010101 (.drw 0x0 0x1 0x5) = true := by decide
theorem test_decode_skp : reads 0b1110001110011110 (.skp 0x3 0x9) = true := by decide
theorem test_decode_sknp : reads 0b1110001110100001 (.sknp 0x3 0xA) = true := by decide
theorem test_decode_ld_vx_dt : reads 0b1111000100000111 (.ldVxDt 0x1) = true := by decide
theorem test_decode_ld_vx_k : reads 0b1111001100001010 (.ldVxK 0x3) = true := by decide
theorem test_decode_ld_dt : reads 0b1111000000010101 (.ldDtVx 0x0) = true := by decide
theorem test_decode_ld_st : reads 0b1111000000011000 (.ldStVx 0x0) = true := by decide
theorem test_decode_add_i : reads 0b1111001000011110 (.addI 0x2) = true := by decide
theorem test_decode_ld_f : reads 0b1111101000101001 (.ldF 0xA) = true := by decide
theorem test_decode_ld_b : reads 0b1111000000110011 (.ldB 0x0) = true := by decide
theorem test_decode_store : reads 0b1111000101010101 (.storeRegs 0x1) = true := by decide
theorem test_decode_load : reads 0b1111001001100101 (.loadRegs 0x2) = true := by decide
theorem test_decode_unmapped_8 : reads 0b1000000000001111 (.unmapped 0x800F) = true := by decide
theorem test_decode_unmapped_E : reads 0b1110000110011111 (.unmapped 0xE19F) = true := by decide
theorem test_decode_unmapped_F : reads 0b1111000001100110 (.unmapped 0xF066) = true := by decide
theorem test_decode_too_long : decodeTableWord 17 0x16A02 = none := by decide
theorem test_decode_truncated : decodeBytes [0x6A] = .error .truncated := by decide

/-! ### The cycle (95_test_vectors.md 2.1) -/

/-- V-CYC-1 -/
theorem test_cyc_1 : after (at_ 0x200 0x6A02 r0)
    (fun t => t.reg 0xA == 0x02 && t.pc == 0x202 && t.evt == 0 && t.op == 0x6A02) = true := by decide
/-- V-CYC-2 -/
theorem test_cyc_2 : after (at_ 0xFFF 0x00E0 r0) (fun t => t.pc == 0x1001 && t.evt == 0x04) = true := by decide
/-- V-CYC-3 -/
theorem test_cyc_3 : after (at_ 0xFFFE 0x6A02 r0)
    (fun t => t.reg 0xA == 0x02 && t.pc == 0x0000 && t.evt == 0x04) = true := by decide
/-- V-CYC-4 -/
theorem test_cyc_4 : after (atWith true 0 0x200 0x0123 { r0 with dt := 5, st := 1 })
    (fun t => t.pc == 0x202 && t.dt == 4 && t.st == 0 && t.evt == 0x10) = true := by decide
/-- V-CYC-5 -/
theorem test_cyc_5 : after (atWith true 0 0x200 0xF015 (regs [(0, 5)] r0)) (fun t => t.dt == 4) = true := by decide
/-- V-CYC-6 -/
theorem test_cyc_6 : after (atWith true 0 0x200 0xF107 { r0 with dt := 0x3C })
    (fun t => t.reg 1 == 0x3C && t.dt == 0x3B && t.evt == 0) = true := by decide
/-- V-CYC-7 -/
theorem test_cyc_7 : after (atWith true 0 0x200 0x6000 r0) (fun t => t.dt == 0 && t.st == 0) = true := by decide

/-! ### Decoding's corners (2.2) -/

/-- V-ENC-1 -/
theorem test_enc_1 : after (at_ 0x200 0x0000 (lit 5 5 r0))
    (fun t => t.pc == 0x202 && !pixelAt t.fb 5 5 && t.evt == 0x20) = true := by decide
/-- V-ENC-3 -/
theorem test_enc_3 : after (at_ 0x200 0x0F2E { r0 with sp := 1, stack := r0.stack.set 0 0x300 })
    (fun t => t.pc == 0x300 && t.sp == 0 && t.evt == 0x20) = true := by decide
/-- V-ENC-5 -/
theorem test_enc_5 : after (at_ 0x200 0x800F r0) (fun t => t.pc == 0x202 && t.evt == 0x10) = true := by decide
/-- V-ENC-8 -/
theorem test_enc_8 : after (at_ 0x200 0xE13E { regs [(1, 3)] r0 with key := 0x0008 })
    (fun t => t.pc == 0x204 && t.evt == 0x20) = true := by decide
/-- V-ENC-11 -/
theorem test_enc_11 : after (at_ 0x200 0x5121 (regs [(1, 4), (2, 4)] r0))
    (fun t => t.pc == 0x204 && t.evt == 0x20) = true := by decide
/-- V-ENC-12 -/
theorem test_enc_12 : after (at_ 0x200 0x912F (regs [(1, 4), (2, 5)] r0))
    (fun t => t.pc == 0x204 && t.evt == 0x20) = true := by decide

/-! ### Control flow (2.3) -/

/-- V-CF-3 -/
theorem test_cf_3 : after (at_ 0x200 0x1FFF r0) (fun t => t.pc == 0xFFF && t.evt == 0) = true := by decide
/-- V-CF-5 -/
theorem test_cf_5 : after (at_ 0x300 0x2400 { r0 with sp := 15, stack := Vector.replicate 16 0x202 })
    (fun t => t.pc == 0x400 && t.sp == 16 && t.stack[15] == 0x302 && t.evt == 0) = true := by decide
/-- V-CF-6 -/
theorem test_cf_6 : after (at_ 0x300 0x2400 { r0 with sp := 16, stack := Vector.replicate 16 0x202 })
    (fun t => t.pc == 0x400 && t.sp == 16 && t.stack == Vector.replicate 16 0x202 && t.evt == 0x01) = true := by decide
/-- V-CF-7 -/
theorem test_cf_7 : after (at_ 0x212 0x00EE { r0 with sp := 1, stack := r0.stack.set 0 0x206 })
    (fun t => t.pc == 0x206 && t.sp == 0 && t.stack[0] == 0x206 && t.evt == 0) = true := by decide
/-- V-CF-8 -/
theorem test_cf_8 : after (at_ 0x212 0x00EE r0) (fun t => t.pc == 0x214 && t.sp == 0 && t.evt == 0x02) = true := by
  decide
/-- V-CF-10 -/
theorem test_cf_10 : after (at_ 0x200 0xBF80 (regs [(0, 0xFF)] r0)) (fun t => t.pc == 0x107F && t.evt == 0) = true := by
  decide
/-- V-CF-11 -/
theorem test_cf_11 : after (at_ 0xFFE 0x2FFE r0)
    (fun t => t.pc == 0xFFE && t.sp == 1 && t.stack[0] == 0x1000 && t.evt == 0) = true := by decide

/-! ### Register arithmetic and logic (2.4) -/

/-- V-ALU-3 -/
theorem test_alu_3 : after (at_ 0x200 0x7002 (regs [(0, 0xFF), (0xF, 7)] r0))
    (fun t => t.reg 0 == 1 && t.reg 0xF == 7 && t.evt == 0) = true := by decide
/-- V-ALU-5 -/
theorem test_alu_5 : after (at_ 0x200 0x8130 (regs [(3, 0x7E)] r0)) (fun t => t.reg 1 == 0x7E) = true := by decide
/-- V-ALU-6 -/
theorem test_alu_6 : after (at_ 0x200 0x8011 (regs [(0, 0xF0), (1, 0x0F), (0xF, 0x55)] r0))
    (fun t => t.reg 0 == 0xFF && t.reg 0xF == 0x55) = true := by decide
/-- V-ALU-7 -/
theorem test_alu_7 : after (at_ 0x200 0x8012 (regs [(0, 0xF0), (1, 0x3C)] r0)) (fun t => t.reg 0 == 0x30) = true := by
  decide
/-- V-ALU-8 -/
theorem test_alu_8 : after (at_ 0x200 0x8013 (regs [(0, 0xF0), (1, 0x3C)] r0)) (fun t => t.reg 0 == 0xCC) = true := by
  decide
/-- V-ALU-10 -/
theorem test_alu_10 : after (at_ 0x200 0x8014 (regs [(0, 0xFF), (1, 0x02)] r0))
    (fun t => t.reg 0 == 1 && t.reg 0xF == 1 && t.evt == 0) = true := by decide
/-- V-ALU-14 -/
theorem test_alu_14 : after (at_ 0x200 0x8F04 (regs [(0, 1), (0xF, 0xFF)] r0))
    (fun t => t.reg 0xF == 1 && t.evt == 0x40) = true := by decide
/-- V-ALU-17 -/
theorem test_alu_17 : after (at_ 0x200 0x8015 (regs [(0, 3), (1, 5), (0xF, 0xAA)] r0))
    (fun t => t.reg 0 == 0xFE && t.reg 0xF == 0) = true := by decide
/-- V-ALU-18 -/
theorem test_alu_18 : after (at_ 0x200 0x8015 (regs [(0, 7), (1, 7), (0xF, 1)] r0))
    (fun t => t.reg 0 == 0 && t.reg 0xF == 0) = true := by decide
/-- V-ALU-20 -/
theorem test_alu_20 : after (at_ 0x200 0x8236 (regs [(2, 0x80), (3, 0xFF), (0xF, 0xAA)] r0))
    (fun t => t.reg 2 == 0x40 && t.reg 0xF == 0 && t.evt == 0) = true := by decide
/-- V-ALU-21 -/
theorem test_alu_21 : after (at_ 0x200 0x8F06 (regs [(0xF, 3)] r0))
    (fun t => t.reg 0xF == 1 && t.evt == 0x40) = true := by decide
/-- V-ALU-22 -/
theorem test_alu_22 : after (at_ 0x200 0x8017 (regs [(0, 3), (1, 5)] r0))
    (fun t => t.reg 0 == 2 && t.reg 0xF == 1) = true := by decide
/-- V-ALU-24 -/
theorem test_alu_24 : after (at_ 0x200 0x8017 (regs [(0, 9), (1, 9), (0xF, 0xAA)] r0))
    (fun t => t.reg 0 == 0 && t.reg 0xF == 0) = true := by decide
/-- V-ALU-27 -/
theorem test_alu_27 : after (at_ 0x200 0x801E (regs [(0, 0x81)] r0))
    (fun t => t.reg 0 == 2 && t.reg 0xF == 1 && t.evt == 0) = true := by decide
/-- V-ALU-28 -/
theorem test_alu_28 : after (at_ 0x200 0x8FFE (regs [(0xF, 0x80)] r0))
    (fun t => t.reg 0xF == 1 && t.evt == 0x40) = true := by decide
/-- V-ALU-29 -/
theorem test_alu_29 : after (atWith false 0xA7 0x200 0xC30F r0) (fun t => t.reg 3 == 7 && t.evt == 0) = true := by
  decide

/-! ### Skip and compare (2.5) -/

/-- V-SKP-1 -/
theorem test_skp_1 : after (at_ 0x208 0x3005 (regs [(0, 5)] r0)) (fun t => t.pc == 0x20C && t.evt == 0) = true := by
  decide
/-- V-SKP-4 -/
theorem test_skp_4 : after (at_ 0x208 0x4005 (regs [(0, 5)] r0)) (fun t => t.pc == 0x20A && t.evt == 0) = true := by
  decide
/-- V-SKP-6 -/
theorem test_skp_6 : after (at_ 0x300 0x5120 (regs [(1, 0x33), (2, 0x34)] r0)) (fun t => t.pc == 0x302) = true := by
  decide
/-- V-SKP-8 -/
theorem test_skp_8 : after (at_ 0x300 0x9110 (regs [(1, 9)] r0)) (fun t => t.pc == 0x302 && t.evt == 0) = true := by
  decide
/-- V-SKP-11 -/
theorem test_skp_11 : after (at_ 0x202 0xE3A1 (regs [(3, 7)] r0)) (fun t => t.pc == 0x206 && t.evt == 0) = true := by
  decide
/-- V-SKP-12 -/
theorem test_skp_12 : after (at_ 0x202 0xE39E { regs [(3, 0x17)] r0 with key := 0x0080 })
    (fun t => t.pc == 0x206 && t.evt == 0x08) = true := by decide
/-- V-SKP-13 -/
theorem test_skp_13 : after (at_ 0xFFFC 0x3000 r0) (fun t => t.pc == 0x0000 && t.evt == 0x04) = true := by decide

/-! ### Display (2.6) -/

/-- V-DRW-1 -/
theorem test_drw_1 : after (at_ 0x200 0x00E0 (lit 6 6 (lit 5 5 r0)))
    (fun t => t.fb == blankFb && t.evt == 0) = true := by decide
/-- V-DRW-2, the rows of glyph 0 -/
theorem test_drw_2 : after (at_ 0x200 0xD015 { r0 with i := 0x050 })
    (fun t => t.fb.toList.take 6 == [0xF, 0x9, 0x9, 0x9, 0xF, 0] && t.reg 0xF == 0 && t.evt == 0) = true := by decide
/-- V-DRW-4 -/
theorem test_drw_4 : after (at_ 0x200 0xD011 (lit 3 3 (bytes 0x300 [0xC0] { regs [(0, 2), (1, 3)] r0 with i := 0x300 })))
    (fun t => pixelAt t.fb 2 3 && !pixelAt t.fb 3 3 && t.reg 0xF == 1 && t.evt == 0) = true := by decide
/-- V-DRW-5 -/
theorem test_drw_5 : after (at_ 0x200 0xD012 (bytes 0x300 [0xFF, 0x81] { regs [(0, 0x3E), (1, 0x1F)] r0 with i := 0x300 }))
    (fun t => t.fb == blankFb.set 31 (BitVec.twoPow 64 62 ||| BitVec.twoPow 64 63) && t.reg 0xF == 0 &&
      t.evt == 0x80) = true := by decide
/-- V-DRW-6 -/
theorem test_drw_6 : after (at_ 0x200 0xD010 { regs [(0xF, 1)] r0 with i := 0x300 })
    (fun t => t.fb == blankFb && t.reg 0xF == 0 && t.evt == 0) = true := by decide
/-- V-DRW-7 -/
theorem test_drw_7 : after (at_ 0x200 0xDF01 (bytes 0x300 [0x80] { regs [(0xF, 5), (0, 2)] r0 with i := 0x300 }))
    (fun t => pixelAt t.fb 5 2 && t.reg 0xF == 0 && t.evt == 0x40) = true := by decide
/-- V-DRW-8 -/
theorem test_drw_8 : after (at_ 0x200 0xD002 (bytes 0xFFF [0x80, 0x40] { r0 with i := 0xFFF }))
    (fun t => pixelAt t.fb 0 0 && pixelAt t.fb 1 1 && t.evt == 0x04) = true := by decide
/-- V-DRW-11 -/
theorem test_drw_11 : after (at_ 0x200 0xF029 (regs [(0, 0x1A)] r0)) (fun t => t.i == 0x082 && t.evt == 0x08) = true := by
  decide
/-- V-DRW-12 -/
theorem test_drw_12 : after (at_ 0x200 0xF029 (regs [(0, 0x0F)] r0)) (fun t => t.i == 0x09B && t.evt == 0) = true := by
  decide

/-! ### Index, memory, timers, keys (2.7) -/

/-- V-MEM-2 -/
theorem test_mem_2 : after (at_ 0x200 0xAFFF r0) (fun t => t.i == 0xFFF && t.evt == 0) = true := by decide
/-- V-MEM-4 -/
theorem test_mem_4 : after (at_ 0x200 0xF21E { regs [(2, 1)] r0 with i := 0xFFF })
    (fun t => t.i == 0x1000 && t.reg 0xF == 0 && t.evt == 0) = true := by decide
/-- V-MEM-5 -/
theorem test_mem_5 : after (at_ 0x200 0xF21E { regs [(2, 2)] r0 with i := 0xFFFF })
    (fun t => t.i == 0x0001 && t.evt == 0) = true := by decide
/-- V-MEM-8 -/
theorem test_mem_8 : after (at_ 0x200 0xF018 (regs [(0, 2)] r0)) (fun t => t.st == 2 && t.soundOn) = true := by decide
/-- V-MEM-9 -/
theorem test_mem_9 : after (at_ 0x200 0xF033 { regs [(0, 0xEA)] r0 with i := 0x300 })
    (fun t => t.peek 0x300 == 2 && t.peek 0x301 == 3 && t.peek 0x302 == 4 && t.evt == 0) = true := by decide
/-- V-MEM-12 -/
theorem test_mem_12 : after (at_ 0x200 0xF033 { regs [(0, 7)] r0 with i := 0xFFF })
    (fun t => t.peek 0xFFF == 0 && t.peek 0 == 0 && t.peek 1 == 7 && t.i == 0xFFF && t.evt == 0x04) = true := by decide
/-- V-MEM-13 -/
theorem test_mem_13 : after (at_ 0x200 0xF155 { regs [(0, 0x11), (1, 0x22), (2, 0x33)] r0 with i := 0x300 })
    (fun t => t.peek 0x300 == 0x11 && t.peek 0x301 == 0x22 && t.peek 0x302 == 0 && t.i == 0x300 && t.evt == 0) = true := by
  decide
/-- V-MEM-16 -/
theorem test_mem_16 : after (at_ 0x200 0xFF65
      (bytes 0x300 [16, 17, 18, 19, 20, 21, 22, 23, 24, 25, 26, 27, 28, 29, 30, 31] { r0 with i := 0x300 }))
    (fun t => t.reg 0 == 0x10 && t.reg 9 == 0x19 && t.reg 0xF == 0x1F && t.evt == 0) = true := by decide
/-- V-MEM-17 -/
theorem test_mem_17 : after (at_ 0x200 0xF265 (bytes 0xFFE [1, 2, 3] { r0 with i := 0xFFE }))
    (fun t => t.reg 0 == 1 && t.reg 1 == 2 && t.reg 2 == 3 && t.evt == 0x04) = true := by decide
/-- V-MEM-20 -/
theorem test_mem_20 : after (at_ 0x200 0xF30A { r0 with key := 0x0210 })
    (fun t => t.reg 3 == 4 && t.pc == 0x202 && t.evt == 0) = true := by decide
/-- V-MEM-21 -/
theorem test_mem_21 : after (atWith true 0 0x200 0xF30A { r0 with dt := 2 })
    (fun t => t.pc == 0x200 && t.dt == 1 && t.evt == 0) = true := by decide

/-! ### Reset and the ports (2.8) -/

/-- The ports of one clock with nothing asked for. -/
def idle : Ports := ⟨false, false, false, 0, none, none⟩

/-- One clock answers a next state of which `p` holds. -/
def afterClock (q : Ports) (s : State) (p : State → Bool) : Bool :=
  match portStep q s with
  | .next t => p t
  | .fault _ => false
  | .refused _ => false

/-- V-RST-2 -/
theorem test_rst_2 : afterClock { idle with rst := true, cycle := true }
      (bytes 0x300 [9] { regs [(3, 7)] r0 with pc := 0x400, evt := 0xFF, sp := 4 }) (fun t => t == State.reset) = true := by
  decide
/-- V-RST-3 -/
theorem test_rst_3 : afterClock { idle with memWrite := some (0x200, 0x6A) } r0
    (fun t => t.peek 0x200 == 0x6A && t.peek 0x201 == 0 && t.pc == 0x200) = true := by decide
/-- A clock with a key write and a cycle: the write comes first (R51). -/
theorem test_key_write_before_cycle : afterClock { idle with cycle := true, keyWrite := some 0x0080 }
    ({ r0 with inputs := [] }.placeOpcode 16 0xF30A) (fun t => t.reg 3 == 7 && t.pc == 0x202) = true := by decide
/-- R306: the largest image loads, one byte more is refused. -/
theorem test_rom_sizes : r0.loadRom (List.replicate 3585 0) = none ∧
    r0.loadRom (List.replicate 3584 0) = some (r0.loadBytes (List.replicate 3584 0) 0x200) :=
  ⟨if_neg (by rw [List.length_replicate]; decide), if_pos (by rw [List.length_replicate])⟩

/-! ### What the host asks of the first instruction -/

theorem test_first_instruction : after ((State.reset).withFetchWord 16 0x6A02) (fun t => t.reg 0xA == 0x02) = true := by
  decide

/-! ### Witnesses: the hypotheses of each obligation are met -/

/-- A state of an ordinary run: 6A02 at 0x200. -/
def w0 : State := at_ 0x200 0x6A02 r0

/-- A state that waits for a key: F30A at 0x200, no key pressed. -/
def w1 : State := at_ 0x200 0xF30A r0

/-- A state at the end of a run: 1200 at 0x200. -/
def w2 : State := at_ 0x200 0x1200 r0

/-- Every pixel of glyph 0's place on, I at glyph 0. -/
def w3 : State := { r0 with fb := Vector.replicate 32 (-1#64), i := 0x050 }

theorem witness_DecodeOfEncode : (Instr.sys 0x123).wellFormed = true ∧ (Instr.unmapped 0xF0FF).wellFormed = true ∧
    (Instr.drw 1 2 15).wellFormed = true := by decide
theorem witness_StepRecordsNonCanonical_set : after (at_ 0x200 0x912F r0) (fun t => t.evtBit .nonCanon) = true := by decide
theorem witness_StepRecordsNonCanonical_clear : after (at_ 0x200 0x00EE r0) (fun t => !t.evtBit .nonCanon) = true := by
  decide
theorem witness_StepRunsTheDecodedInstruction :
    decodeWord (wordOfBytes (w0.peek w0.pc.toNat) (w0.peek (w0.pc.toNat + 1))) = .ldImm 0xA 0x02 ∧
      ∃ t, exec (.ldImm 0xA 0x02) w0.beginCycle = .next t := ⟨by decide, _, rfl⟩
theorem witness_DelayTimer_set : decodeWord (at_ 0x200 0xF015 r0).nextOpcode = .ldDtVx 0 := by decide
theorem witness_DelayTimer_kept : ∀ x, decodeWord w0.nextOpcode ≠ .ldDtVx x := by decide
theorem witness_DelayTimer_read : decodeWord (at_ 0x200 0xF107 r0).nextOpcode = .ldVxDt 1 := by decide
theorem witness_SoundTimer_set : decodeWord (at_ 0x200 0xF018 r0).nextOpcode = .ldStVx 0 := by decide
theorem witness_SoundTimer_kept : ∀ x, decodeWord w0.nextOpcode ≠ .ldStVx x := by decide
theorem witness_StepKeepsMemoryCanonical : w0.Inv ∧ ∃ t, step w0 = .next t := ⟨show w0.mem.wf = true by decide, _, rfl⟩
theorem witness_EvtIsSticky : (∃ t, step { w0 with evt := 0x04 } = .next t) ∧
    ({ w0 with evt := 0x04 } : State).evtBit .addrWrap = true ∧ idle.rst = false ∧
    ∃ t, portStep idle { w0 with evt := 0x04 } = .next t := ⟨⟨_, rfl⟩, by decide, rfl, _, rfl⟩
theorem witness_InstructionsWriteOnly : (∃ t, exec (.drw 0 1 5) w3 = .next t) ∧ ∃ t, exec (.call 0x300) r0 = .next t :=
  ⟨⟨_, rfl⟩, _, rfl⟩
theorem witness_InstructionsReadOnly : ¬ readsReg (.addReg 1 2) 3 ∧ ¬ readsReg (.shr 1 2) 2 ∧
    ∃ t, exec (.addReg 1 2) r0 = .next t :=
  ⟨by simp [readsReg], by simp [readsReg], _, rfl⟩
theorem witness_HandlersChangePc : (∃ t, exec (.jp 0x300) r0 = .next t) ∧ ∃ t, exec (.ldVxK 3) r0 = .next t :=
  ⟨⟨_, rfl⟩, _, rfl⟩
theorem witness_RetPopsIntoPc_first : ({ r0 with sp := 1 } : State).sp.val = (0 : Fin 16).val + 1 := by decide
theorem witness_RetPopsIntoPc_last : ({ r0 with sp := 16 } : State).sp.val = (15 : Fin 16).val + 1 := by decide
theorem witness_RetPopsIntoPc_empty : r0.sp.val = 0 := by decide
theorem witness_CallPushesAndJumps_last_room : ({ r0 with sp := 15 } : State).sp.val = (15 : Fin 16).val := by decide
theorem witness_CallPushesAndJumps_full : ({ r0 with sp := 16 } : State).sp.val = 16 := by decide
theorem witness_RetUndoesCall : ({ r0 with sp := 15 } : State).sp.val < 16 := by decide
theorem witness_NestedCallsReturn : (List.replicate 16 0x300#12) ≠ [] ∧
    r0.sp.val + (List.replicate 16 0x300#12).length ≤ 16 := by decide
theorem witness_VfDestination : (0x1 : Nibble) ≠ 0xF ∧ afterExec (.addReg 0xF 0) r0 (fun t => t.reg 0xF == 0) = true := by
  decide
theorem witness_SkipsOnAKey_boundary :
    afterExec (.skp 0 9) { regs [(0, 0x0F)] r0 with key := 0x8000 } (fun t => t.pc == 0x202 && t.evt == 0) = true ∧
    afterExec (.skp 0 9) { regs [(0, 0x10)] r0 with key := 0x0001 } (fun t => t.pc == 0x202 && t.evt == 0x08) = true := by
  decide
theorem witness_DrwFlagsCollision_hit : onScreen 0 0 ∧ pixelAt w3.fb 0 0 = true ∧ w3.spriteAt 0 1 5 0 0 = true :=
  ⟨⟨by decide, by decide⟩, by decide, by decide⟩
theorem witness_DrwFlagsCollision_miss :
    ¬ ∃ px py, onScreen px py ∧ pixelAt r0.fb px py = true ∧ r0.spriteAt 0 1 5 px py = true :=
  fun ⟨px, py, _, h, _⟩ => Bool.false_ne_true ((pixelAt_blankFb px py).symm.trans h)
theorem witness_DrwRecordsItsEvents_clip :
    ¬ onScreen 64 0 ∧ ({ regs [(0, 63)] w3 with i := 0x050 } : State).spriteAt 0 1 5 64 0 = true :=
  ⟨by simp [onScreen], by decide⟩
theorem witness_DrwRecordsItsEvents_wrap :
    afterExec (.drw 0 1 1) { r0 with i := 4095 } (fun t => t.evt == 0) = true ∧
    afterExec (.drw 0 1 1) { r0 with i := 4096 } (fun t => t.evt &&& 0x04 == 0x04) = true := by decide
theorem witness_DrawingTwice : (0x0 : Nibble) ≠ 0xF ∧ (0x1 : Nibble) ≠ 0xF ∧ pixelAt r0.fb 0 0 = false ∧
    ({ r0 with i := 0x050 } : State).spriteAt 0 1 5 0 0 = true := by decide
theorem witness_DrawingTwice_none_off :
    ¬ ∃ px py, onScreen px py ∧ pixelAt w3.fb px py = false ∧ w3.spriteAt 0 1 5 px py = true := by
  rintro ⟨px, py, ⟨hx, hy⟩, h, _⟩
  have hall : ∀ k : Fin 64, (-1#64).getLsbD k = true := by decide
  have h' : pixelAt w3.fb px py = (-1#64).getLsbD px := by simp only [w3, pixelAt, hy, dif_pos, Vector.getElem_replicate]
  exact Bool.false_ne_true (h.symm.trans (h'.trans (hall ⟨px, hx⟩)))
theorem witness_SecondDraw : (0x0 : Nibble) ≠ 0xF ∧ (0x1 : Nibble) ≠ 0xF ∧
    ∃ t u, exec (.drw 0 1 5) w3 = .next t ∧ exec (.drw 0 1 5) t = .next u :=
  ⟨by decide, by decide, _, _, rfl, rfl⟩
theorem witness_SecondDrawAfterFresh : (0x0 : Nibble) ≠ 0xF ∧ (0x1 : Nibble) ≠ 0xF ∧
    (∃ t, exec (.drw 0 1 5) { r0 with i := 0x050 } = .next t ∧ t.reg 0xF = 0) ∧
    onScreen 0 0 ∧ ({ r0 with i := 0x050 } : State).spriteAt 0 1 5 0 0 = true :=
  ⟨by decide, by decide, ⟨_, rfl, by decide⟩, ⟨by decide, by decide⟩, by decide⟩
theorem witness_SecondDrawAfterFresh_blank :
    (∃ t, exec (.drw 0 1 0) r0 = .next t ∧ t.reg 0xF = 0) ∧
    ¬ ∃ px py, onScreen px py ∧ r0.spriteAt 0 1 0 px py = true :=
  ⟨⟨_, rfl, by decide⟩, fun ⟨_, _, _, h⟩ => Bool.false_ne_true ((spriteBit_nil _ _ _ _).symm.trans h)⟩

/-- The pixels of glyph 0 on at (0, 0), I at glyph 0 (the rows of V-DRW-2). -/
def glyphOn : State :=
  { r0 with i := 0x050, fb := ((((blankFb.set 0 0xF).set 1 0x9).set 2 0x9).set 3 0x9).set 4 0xF }

/-- Where R229's sentence fails (log 12): with glyph 0 already on, the first draw turns every pixel off with VF = 1
(R221, R225), and the second draw is V-DRW-2, for which the spec gives VF = 0. -/
theorem test_R229_conflict : afterExec (.drw 0 1 5) glyphOn (fun t => t.fb == blankFb && t.reg 0xF == 1 &&
    t.i == 0x050 && afterExec (.drw 0 1 5) t (fun u => u.fb == glyphOn.fb && u.reg 0xF == 0)) = true := by decide

theorem witness_BlockEdges :
    afterExec (.ldB 0) { r0 with i := 4093 } (fun t => t.evt == 0) = true ∧
    afterExec (.ldB 0) { r0 with i := 4094 } (fun t => t.evt == 0x04) = true ∧
    afterExec (.storeRegs 0xF) { r0 with i := 4080 } (fun t => t.evt == 0) = true ∧
    afterExec (.loadRegs 0xF) { r0 with i := 4081 } (fun t => t.evt == 0x04) = true := by decide
theorem witness_KeyWait_done : ({ r0 with key := 0x8010 } : State).key.getLsbD 4 = true ∧
    ∀ j, j < 4 → ({ r0 with key := 0x8010 } : State).key.getLsbD j = false := by decide
theorem witness_KeyWait_waits : r0.key = 0 := by decide
theorem witness_WaitingStepHoldsPc : decodeWord w1.nextOpcode = .ldVxK 3 ∧ w1.input.keyWrite.getD w1.key = 0 := by decide
/-- A waiting step whose fetch wraps: F30A at 0xFFF and 0x000 (V-CYC-2, V-MEM-18). -/
theorem witness_WaitingStepHoldsPc_wraps : decodeWord (at_ 0xFFF 0xF30A r0).nextOpcode = .ldVxK 3 ∧
    after (at_ 0xFFF 0xF30A r0) (fun t => t.pc == 0xFFF && t.key == 0 && t.evt == 0x04) = true := by decide
theorem witness_EndedRunStaysEnded : w2.ended = true := by decide
theorem witness_MemoryReadsTheLastWrite : ((r0.memWrite 4096 0x5A).memRead 0).1 = 0x5A ∧
    ((r0.memWrite 4095 0x5A).memRead 0).1 = 0x00 := by decide
theorem witness_ResetSetsEveryElement : ({ idle with rst := true } : Ports).rst = true := by decide
theorem witness_HostWritesBetweenCycles_byte : ∃ p : Ports, p.rst = false ∧ p.cycle = false ∧
    p.memWrite = some (0xFFF, 0x01) ∧ p.keyWrite = none :=
  ⟨{ idle with memWrite := some (0xFFF, 0x01) }, rfl, rfl, rfl, rfl⟩
theorem witness_HostWritesBetweenCycles_key : ∃ p : Ports, p.rst = false ∧ p.cycle = false ∧
    p.memWrite = none ∧ p.keyWrite = some 0x8000 :=
  ⟨{ idle with keyWrite := some 0x8000 }, rfl, rfl, rfl, rfl⟩
theorem witness_HostWritesBetweenCycles_idle : idle.rst = false ∧ idle.cycle = false ∧ idle.memWrite = none := by decide
theorem witness_HostWritesBeforeTheCycle : ∃ p : Ports, p.rst = false ∧ p.cycle = true ∧
    p.memWrite = some (0x000, 0x01) :=
  ⟨{ idle with cycle := true, memWrite := some (0x000, 0x01) }, rfl, rfl, rfl⟩
theorem witness_HostWritesBeforeTheCycle_none : ∃ p : Ports, p.rst = false ∧ p.cycle = true ∧ p.memWrite = none :=
  ⟨{ idle with cycle := true }, rfl, rfl, rfl⟩
theorem witness_RomLoad : (List.replicate 3584 0x00#8).length ≤ 3584 := Nat.le_of_eq List.length_replicate

end Sys2Proof.Tests
end

section
/-! SUPPORT. An instruction as a list of updates of the state. `exec_eq_applyAll` says once what an instruction can
do; what holds of every update then holds of every instruction. -/

namespace Sys2Proof.Machine

/-! ### The updates -/

/-- One update of the state. It carries what it stores, so that it reads nothing of the state it is applied to but
the EVT that an event adds a bit to. -/
inductive Update where
  | event (c : Bool) (e : Event)
  | setReg (x : Nibble) (b : Byte)
  | setI (w : Word)
  | setPc (w : Word)
  | setSp (k : Fin 17)
  | setEntry (k : Fin 16) (w : Word)
  | setDt (b : Byte)
  | setSt (b : Byte)
  | poke (a : Nat) (b : Byte)
  | setFb (f : FrameBuffer)

/-- The update, through the model's operation for its element. -/
def Update.apply (u : Update) (s : State) : State :=
  match u with
  | .event c e => s.eventIf c e
  | .setReg x b => s.setReg x b
  | .setI w => s.setI w
  | .setPc w => s.setPc w
  | .setSp k => { s with sp := k }
  | .setEntry k w => { s with stack := s.stack.set k w }
  | .setDt b => s.setDt b
  | .setSt b => s.setSt b
  | .poke a b => s.poke a b
  | .setFb f => s.setFb f

/-- The updates one after the other, the first of the list first. -/
def State.applyAll (us : List Update) (s : State) : State := us.foldl (fun t u => u.apply t) s

@[simp] theorem State.applyAll_nil (s : State) : s.applyAll [] = s := rfl
@[simp] theorem State.applyAll_cons (u : Update) (us : List Update) (s : State) :
    s.applyAll (u :: us) = (u.apply s).applyAll us := rfl
theorem State.applyAll_append (us vs : List Update) (s : State) :
    s.applyAll (us ++ vs) = (s.applyAll us).applyAll vs := List.foldl_append

/-- A property that every update keeps is kept by a list of updates. -/
theorem State.applyAll_induction {P : State → Prop} {us : List Update}
    (hu : ∀ u ∈ us, ∀ t, P t → P (u.apply t)) {s : State} (hs : P s) : P (s.applyAll us) := by
  induction us generalizing s with
  | nil => exact hs
  | cons u us ih => exact ih (fun v hv => hu v (by simp [hv])) (hu u (by simp) s hs)

/-! ### The updates of an instruction -/

/-- The stores of a block of bytes at `a`, `a + 1`, …. -/
def storeUpdates (bs : List Byte) (a : Nat) : List Update := (bs.zipIdx a).map fun p => .poke p.2 p.1

/-- The loads of a block of bytes into V[k], V[k+1], …. -/
def loadUpdates (bs : List Byte) (k : Nat) : List Update :=
  (bs.zipIdx k).map fun p => .setReg (BitVec.ofNat 4 p.2) p.1

/-- CALL's push (R144, R146). -/
def pushUpdates (s : State) : List Update :=
  if h : s.sp.val < 16 then [.setEntry ⟨s.sp.val, h⟩ s.pc, .setSp ⟨s.sp.val + 1, by omega⟩]
  else [.event true .stkOvf]

/-- RET's pop (R142, R143). -/
def popUpdates (s : State) : List Update :=
  if h : s.sp.val = 0 then [.event true .stkUnf]
  else [.setSp ⟨s.sp.val - 1, by omega⟩, .setPc (s.stack[s.sp.val - 1]'(by omega))]

/-- The skip of a comparison that holds (R200). -/
def skipUpdate (c : Bool) (s : State) : Update := .setPc (if c then s.pc + 2 else s.pc)

/-- VF_ARG, the result, then the flag (R160). -/
def flagUpdates (arg : Bool) (x : Nibble) (r : Byte) (f : Bool) : List Update :=
  [.event arg .vfArg, .setReg x r, .setReg vf (flagByte f)]

/-- The whole draw of DRW from `s` (R221). -/
def State.drawing (x y n : Nibble) (s : State) : Drawing :=
  drawRows (s.sprite n) ((s.reg x).toNat % 64) ((s.reg y).toNat % 32) ⟨s.fb, false, false⟩

/-- The updates an instruction makes when it is executed in `s`. -/
def updates (i : Instr) (s : State) : List Update :=
  match i with
  | .sys _ | .unmapped _ => [.event true .unmapped]
  | .cls dc => [.event (dc != 0x0E#8) .nonCanon, .setFb blankFb]
  | .ret dc => .event (dc != 0x0E#8) .nonCanon :: popUpdates s
  | .jp nnn => [.setPc (zextAddr nnn)]
  | .call nnn => pushUpdates s ++ [.setPc (zextAddr nnn)]
  | .jpV0 nnn => [.setPc (zextAddr nnn + zextByte (s.reg 0))]
  | .seImm x kk => [skipUpdate (s.reg x == kk) s]
  | .sneImm x kk => [skipUpdate (s.reg x != kk) s]
  | .seReg x y n => [.event (n != 0x0#4) .nonCanon, skipUpdate (s.reg x == s.reg y) s]
  | .sneReg x y n => [.event (n != 0x0#4) .nonCanon, skipUpdate (s.reg x != s.reg y) s]
  | .skp x m => [.event (m != 0x9#4) .nonCanon, .event (indexWraps (s.reg x)) .idxWrap,
      skipUpdate (s.pressed (lowIndex (s.reg x))) s]
  | .sknp x m => [.event (m != 0xA#4) .nonCanon, .event (indexWraps (s.reg x)) .idxWrap,
      skipUpdate (!s.pressed (lowIndex (s.reg x))) s]
  | .ldImm x kk => [.setReg x kk]
  | .addImm x kk => [.setReg x (wrapAdd (s.reg x) kk)]
  | .ldReg x y => [.setReg x (s.reg y)]
  | .orReg x y => [.setReg x (s.reg x ||| s.reg y)]
  | .andReg x y => [.setReg x (s.reg x &&& s.reg y)]
  | .xorReg x y => [.setReg x (s.reg x ^^^ s.reg y)]
  | .addReg x y => flagUpdates (x == vf || y == vf) x (wrapAdd (s.reg x) (s.reg y)) (carryOut (s.reg x) (s.reg y))
  | .subReg x y =>
    flagUpdates (x == vf || y == vf) x (wrapSub (s.reg x) (s.reg y)) (strictlyGreater (s.reg x) (s.reg y))
  | .subn x y =>
    flagUpdates (x == vf || y == vf) x (wrapSub (s.reg y) (s.reg x)) (strictlyGreater (s.reg y) (s.reg x))
  | .shr x _ => flagUpdates (x == vf) x (s.reg x >>> 1) (bitOutRight (s.reg x))
  | .shl x _ => flagUpdates (x == vf) x (s.reg x <<< 1) (bitOutLeft (s.reg x))
  | .rnd x kk => [.setReg x (s.input.rnd &&& kk)]
  | .drw x y n => [.event (x == vf || y == vf) .vfArg, .event (blockWraps n.toNat s.i.toNat) .addrWrap,
      .setFb (s.drawing x y n).fb, .event (s.drawing x y n).clipped .clip,
      .setReg vf (flagByte (s.drawing x y n).hit)]
  | .ldI nnn => [.setI (zextAddr nnn)]
  | .addI x => [.setI (s.i + zextByte (s.reg x))]
  | .ldF x => [.event (indexWraps (s.reg x)) .idxWrap, .setI (glyphAddr (lowIndex (s.reg x)))]
  | .ldVxDt x => [.setReg x s.dt]
  | .ldDtVx x => [.setDt (s.reg x)]
  | .ldStVx x => [.setSt (s.reg x)]
  | .ldVxK x => [match lowestKey s.key with
      | some k => .setReg x (BitVec.ofNat 8 k)
      | none => .setPc (s.pc - 2)]
  | .ldB x => storeUpdates (bcdDigits (s.reg x)) s.i.toNat ++ [.event (blockWraps 3 s.i.toNat) .addrWrap]
  | .storeRegs x =>
    storeUpdates (s.regsUpTo x) s.i.toNat ++ [.event (blockWraps (x.toNat + 1) s.i.toNat) .addrWrap]
  | .loadRegs x => .event (blockWraps (x.toNat + 1) s.i.toNat) .addrWrap ::
      loadUpdates ((List.range (x.toNat + 1)).map fun k => s.peek (s.i.toNat + k)) 0

/-! ### Executing is applying the updates -/

theorem applyAll_storeUpdates (bs : List Byte) (a : Nat) (s : State) :
    s.applyAll (storeUpdates bs a) = s.pokeBlock bs a := by
  induction bs generalizing a s with
  | nil => rfl
  | cons b bs ih => exact ih (a + 1) (s.poke a b)

theorem applyAll_loadUpdates (bs : List Byte) (k : Nat) (s : State) :
    s.applyAll (loadUpdates bs k) = s.setRegs k bs := by
  induction bs generalizing k s with
  | nil => rfl
  | cons b bs ih => exact ih (k + 1) (s.setReg (BitVec.ofNat 4 k) b)

theorem applyAll_pushUpdates (s : State) : s.applyAll (pushUpdates s) = s.push s.pc := by
  unfold pushUpdates
  split
  · rename_i h; rw [State.push_room s s.pc h]; rfl
  · rename_i h; rw [State.push_full s s.pc h]; rfl

/-- The pop of RET, with whatever RET recorded before it. -/
theorem applyAll_popUpdates (c : Bool) (e : Event) (s : State) :
    (s.eventIf c e).applyAll (popUpdates s) = (s.eventIf c e).popPc := by
  unfold popUpdates
  split
  · rename_i h; rw [State.popPc_none (s.eventIf c e) h]; rfl
  · rename_i h; rw [State.popPc_some (s.eventIf c e) h]; rfl

/-- What an instruction does: its updates, and it always completes. -/
theorem exec_eq_applyAll (i : Instr) (s : State) : exec i s = .next (s.applyAll (updates i s)) := by
  cases i with
  | ret dc => exact congrArg _ (applyAll_popUpdates (dc != 0x0E#8) .nonCanon s).symm
  | call nnn =>
    rw [updates, State.applyAll_append, applyAll_pushUpdates]
    rfl
  | drw x y n => exact execDrw_eq s x y n
  | ldB x =>
    rw [updates, State.applyAll_append, applyAll_storeUpdates]; exact execLdB_eq s x
  | storeRegs x =>
    rw [updates, State.applyAll_append, applyAll_storeUpdates]; exact execStoreRegs_eq s x
  | loadRegs x =>
    rw [updates, State.applyAll_cons, applyAll_loadUpdates]; exact execLoadRegs_eq s x
  | ldVxK x =>
    simp only [exec, execLdVxK, updates, State.applyAll_cons, State.applyAll_nil]
    cases lowestKey s.key <;> rfl
  | _ => rfl

/-- The next state of an instruction is the state after its updates. -/
theorem eq_applyAll_of_exec {i : Instr} {s t : State} (h : exec i s = .next t) : t = s.applyAll (updates i s) := by
  rw [exec_eq_applyAll] at h
  exact (Host.Outcome.next.inj h).symm

/-- A step's next state: the updates of the instruction at PC, between the cycle's beginning and its end. -/
theorem step_eq_applyAll (s : State) :
    step s = .next (s.beginCycle.applyAll (updates (decodeWord s.nextOpcode) s.beginCycle)).endCycle :=
  step_of_exec (exec_eq_applyAll _ _)

theorem eq_applyAll_of_step {s t : State} (h : step s = .next t) :
    t = (s.beginCycle.applyAll (updates (decodeWord s.nextOpcode) s.beginCycle)).endCycle := by
  rw [step_eq_applyAll] at h
  exact (Host.Outcome.next.inj h).symm

end Sys2Proof.Machine
end

section
/-! SUPPORT. What every update keeps, and what a change of EVT or of one register before it does to it. -/

namespace Sys2Proof.Machine

/-! ### The canonical form of memory -/

theorem Update.apply_keeps_wf (u : Update) (s : State) (h : s.mem.wf = true) : (u.apply s).mem.wf = true := by
  cases u with
  | poke a b => exact State.poke_wf s a b h
  | _ => exact h

/-! ### EVT -/

theorem Update.apply_keeps_evtBit (u : Update) (s : State) (e : Event) (h : s.evtBit e = true) :
    (u.apply s).evtBit e = true := by
  cases u with
  | event c e' => rw [Update.apply, State.evtBit_eventIf, h, Bool.true_or]
  | _ => exact h

theorem State.applyAll_keeps_evtBit (us : List Update) (s : State) (e : Event) (h : s.evtBit e = true) :
    (s.applyAll us).evtBit e = true :=
  State.applyAll_induction (P := fun t => t.evtBit e = true) (fun u _ t => u.apply_keeps_evtBit t e) h

/-- The state with another EVT. -/
def State.withEvt (b : Byte) (s : State) : State := { s with evt := b }

theorem Update.apply_withEvt (u : Update) (b : Byte) (s : State) :
    ∃ b', u.apply (s.withEvt b) = (u.apply s).withEvt b' := by
  cases u with
  | event c e => exact ⟨evtWith c e b, rfl⟩
  | _ => exact ⟨b, rfl⟩

theorem State.applyAll_withEvt (us : List Update) (b : Byte) (s : State) :
    ∃ b', (s.withEvt b).applyAll us = (s.applyAll us).withEvt b' := by
  induction us generalizing b s with
  | nil => exact ⟨b, rfl⟩
  | cons u us ih =>
    obtain ⟨b', h⟩ := u.apply_withEvt b s
    rw [State.applyAll_cons, State.applyAll_cons, h]
    exact ih b' (u.apply s)

/-- No instruction reads EVT (R41). -/
theorem updates_withEvt (i : Instr) (b : Byte) (s : State) : updates i (s.withEvt b) = updates i s := by
  cases i <;> rfl

theorem State.beginCycle_withEvt (b : Byte) (s : State) :
    (s.withEvt b).beginCycle = s.beginCycle.withEvt (evtWith (blockWraps 2 s.pc.toNat) .addrWrap b) := by
  rw [State.beginCycle_spec, State.beginCycle_spec]; rfl

/-- A step from another EVT ends in the same state but for EVT. -/
theorem step_withEvt {s t : State} (b : Byte) (h : step s = .next t) :
    ∃ b', step (s.withEvt b) = .next (t.withEvt b') := by
  obtain ⟨b', hb⟩ := State.applyAll_withEvt (updates (decodeWord s.nextOpcode) s.beginCycle)
    (evtWith (blockWraps 2 s.pc.toNat) .addrWrap b) s.beginCycle
  refine ⟨b', ?_⟩
  rw [step_eq_applyAll, State.beginCycle_withEvt, updates_withEvt, eq_applyAll_of_step h]
  exact congrArg (fun u : State => Host.Outcome.next u.endCycle) hb

theorem State.beginCycle_keeps_evtBit (s : State) (e : Event) (h : s.evtBit e = true) :
    s.beginCycle.evtBit e = true := by
  rw [State.evtBit, State.beginCycle_evt, evtWith_bit, Bool.or_eq_true]
  exact .inl h

theorem step_keeps_evtBit {s t : State} {e : Event} (h : step s = .next t) (he : s.evtBit e = true) :
    t.evtBit e = true := by
  rw [eq_applyAll_of_step h]
  exact State.applyAll_keeps_evtBit _ _ _ (State.beginCycle_keeps_evtBit s e he)

/-! ### The elements an update writes -/

/-- What an update may write: one element, or every pixel. -/
def Update.target : Update → Set Element
  | .event _ _ => {.evt}
  | .setReg x _ => {.reg x}
  | .setI _ => {.i}
  | .setPc _ => {.pc}
  | .setSp _ => {.sp}
  | .setEntry k _ => {.entry k}
  | .setDt _ => {.dt}
  | .setSt _ => {.st}
  | .poke a _ => {byteAt a}
  | .setFb _ => allPixels

theorem OnlyChanges.poke (a : Nat) (b : Byte) (s : State) : OnlyChanges {byteAt a} s (s.poke a b) := by
  intro d hd
  cases d with
  | byte c => exact (State.peek_poke s a c b).trans (if_neg (byteAt_ne hd))
  | _ => rfl

theorem Update.onlyChanges (u : Update) (s : State) : OnlyChanges u.target s (u.apply s) := by
  cases u with
  | event c e => exact OnlyChanges.eventIf s c e
  | setReg x b => exact OnlyChanges.setReg s x b
  | setI w => exact OnlyChanges.setI s w
  | setPc w => exact OnlyChanges.setPc s w
  | setSp k =>
    intro d hd
    cases d with
    | sp => exact absurd rfl hd
    | _ => rfl
  | setEntry k w =>
    intro d hd
    cases d with
    | entry j =>
      have hne : k.val ≠ j.val := fun h => hd (congrArg Element.entry (Fin.ext h).symm)
      exact Vector.getElem_set_ne k.isLt j.isLt hne
    | _ => rfl
  | setDt b => exact OnlyChanges.setDt s b
  | setSt b => exact OnlyChanges.setSt s b
  | poke a b => exact OnlyChanges.poke a b s
  | setFb f => exact OnlyChanges.setFb s f

/-- Updates whose targets lie in `w` change nothing outside `w`. -/
theorem OnlyChanges.applyAll {w : Set Element} {us : List Update} (h : ∀ u ∈ us, u.target ⊆ w) (s : State) :
    OnlyChanges w s (s.applyAll us) :=
  State.applyAll_induction (P := OnlyChanges w s)
    (fun u hu t ht => ht.trans ((u.onlyChanges t).mono (h u hu))) (OnlyChanges.refl s w)

theorem storeUpdates_target {bs : List Byte} {a : Nat} {u : Update} (h : u ∈ storeUpdates bs a) :
    u.target ⊆ blockBytes a bs.length := by
  obtain ⟨⟨b, k⟩, hp, rfl⟩ := List.mem_map.1 h
  have hk := List.mem_zipIdx hp
  rintro e rfl
  exact ⟨k - a, by omega, by rw [Nat.add_sub_cancel' hk.1]⟩

theorem loadUpdates_target {bs : List Byte} {x : Nibble} (hl : bs.length = x.toNat + 1) {u : Update}
    (h : u ∈ loadUpdates bs 0) : u.target ⊆ regsTo x := by
  obtain ⟨⟨b, k⟩, hp, rfl⟩ := List.mem_map.1 h
  have hk := List.mem_zipIdx hp
  have hx := nibble_lt x
  rintro e rfl
  refine ⟨BitVec.ofNat 4 k, ?_, rfl⟩
  rw [BitVec.le_def, ofNat_toNat_nibble k (by omega)]
  omega

theorem pushUpdates_target {s : State} {u : Update} (nnn : Addr) (h : u ∈ pushUpdates s) :
    u.target ⊆ writes (.call nnn) s := by
  unfold pushUpdates at h
  split at h
  · rename_i hs
    rcases List.mem_pair.1 h with rfl | rfl
    · rintro e rfl; exact .inr (.inr (.inr ⟨hs, rfl⟩))
    · rintro e rfl; exact .inr (.inl rfl)
  · obtain rfl := List.mem_singleton.1 h
    rintro e rfl; exact .inr (.inr (.inl rfl))

theorem popUpdates_target {s : State} {u : Update} (h : u ∈ popUpdates s) :
    u.target ⊆ {.pc, .sp, .evt} := by
  unfold popUpdates at h
  split at h
  · obtain rfl := List.mem_singleton.1 h
    simp [Update.target]
  · rcases List.mem_pair.1 h with rfl | rfl <;> simp [Update.target]

/-- The updates of an instruction write what its row names (R22, R61). -/
theorem updates_target {i : Instr} {s : State} : ∀ u ∈ updates i s, u.target ⊆ writes i s := by
  cases i with
  | ret dc =>
    simp only [updates, List.forall_mem_cons]
    exact ⟨by simp [Update.target, writes], fun u hu => popUpdates_target hu⟩
  | call nnn =>
    simp only [updates, List.forall_mem_append, List.forall_mem_singleton]
    refine ⟨fun u hu => pushUpdates_target nnn hu, ?_⟩
    rintro e rfl; exact .inl rfl
  | ldB x =>
    simp only [updates, List.forall_mem_append, List.forall_mem_singleton]
    exact ⟨fun u hu => (storeUpdates_target hu).trans Set.subset_union_left, Set.subset_union_right⟩
  | storeRegs x =>
    simp only [updates, List.forall_mem_append, List.forall_mem_singleton]
    refine ⟨fun u hu => ?_, Set.subset_union_right⟩
    have := storeUpdates_target hu
    rw [State.regsUpTo_length] at this
    exact this.trans Set.subset_union_left
  | loadRegs x =>
    simp only [updates, List.forall_mem_cons]
    exact ⟨Set.subset_union_right, fun u hu =>
      (loadUpdates_target (by simp) hu).trans Set.subset_union_left⟩
  | ldVxK x =>
    simp only [updates, List.forall_mem_singleton]
    cases lowestKey s.key <;> simp [Update.target, writes]
  | drw x y n =>
    have hfb : allPixels ⊆ writes (.drw x y n) s := Set.subset_union_left
    simpa [updates, Update.target, writes] using hfb
  | _ => simp [updates, flagUpdates, skipUpdate, Update.target, writes]

/-- The frame of an instruction. -/
theorem exec_onlyChanges {i : Instr} {s t : State} (h : exec i s = .next t) : OnlyChanges (writes i s) s t := by
  rw [eq_applyAll_of_exec h]
  exact OnlyChanges.applyAll updates_target s

/-! ### One register written beforehand -/

/-- A register written before an update: the update overwrites it, or leaves it and commutes with the write. -/
theorem Update.apply_setReg (u : Update) (r : Nibble) (b : Byte) (s : State) :
    u.apply (s.setReg r b) = u.apply s ∨
      (u.apply (s.setReg r b) = (u.apply s).setReg r b ∧ (u.apply s).reg r = s.reg r) := by
  cases u with
  | setReg x c =>
    by_cases hx : x = r
    · subst hx
      left
      simp [Update.apply, State.setReg]
    · right
      refine ⟨?_, State.reg_setReg_ne s (Ne.symm hx) c⟩
      have hne : r.toNat ≠ x.toNat := fun h => hx (Nibble.toNat_inj.1 h).symm
      simp only [Update.apply, State.setReg, Vector.set_comm _ _ hne]
  | _ => exact .inr ⟨rfl, rfl⟩

theorem State.applyAll_setReg (us : List Update) (r : Nibble) (b : Byte) (s : State) :
    (s.setReg r b).applyAll us = s.applyAll us ∨
      ((s.setReg r b).applyAll us = (s.applyAll us).setReg r b ∧ (s.applyAll us).reg r = s.reg r) := by
  induction us generalizing s with
  | nil => exact .inr ⟨rfl, rfl⟩
  | cons u us ih =>
    simp only [State.applyAll_cons]
    rcases u.apply_setReg r b s with h | ⟨h, hr⟩
    · exact .inl (by rw [h])
    · rw [h, ← hr]
      exact ih (u.apply s)

theorem State.regsUpTo_setReg {x r : Nibble} (h : ¬ r ≤ x) (b : Byte) (s : State) :
    (s.setReg r b).regsUpTo x = s.regsUpTo x := by
  refine List.map_congr_left fun k hk => State.reg_setReg_ne s ?_ b
  rintro rfl
  have hx := nibble_lt x
  rw [List.mem_range] at hk
  rw [BitVec.le_def, ofNat_toNat_nibble k (by omega)] at h
  omega

theorem State.drawing_setReg {x y r : Nibble} (hx : r ≠ x) (hy : r ≠ y) (n : Nibble) (b : Byte) (s : State) :
    (s.setReg r b).drawing x y n = s.drawing x y n := by
  simp only [State.drawing, State.sprite, State.setReg_i, State.setReg_peek, State.setReg_fb,
    State.reg_setReg_ne s hx.symm, State.reg_setReg_ne s hy.symm]

theorem skipUpdate_setReg (c : Bool) (r : Nibble) (b : Byte) (s : State) :
    skipUpdate c (s.setReg r b) = skipUpdate c s := rfl

theorem State.pressed_setReg (k r : Nibble) (b : Byte) (s : State) :
    (s.setReg r b).pressed k = s.pressed k := rfl

/-- The updates of an instruction depend on no register but those its row names as read (R22). -/
theorem updates_setReg {i : Instr} {r : Nibble} (h : ¬ readsReg i r) (b : Byte) (s : State) :
    updates i (s.setReg r b) = updates i s := by
  cases i with
  | storeRegs x => simp only [updates, State.regsUpTo_setReg h, State.setReg_i]
  | drw x y n =>
    obtain ⟨hx, hy⟩ := not_or.1 h
    simp only [updates, State.drawing_setReg hx hy, State.setReg_i]
  | seReg x y | sneReg x y | orReg x y | andReg x y | xorReg x y | addReg x y | subReg x y | subn x y =>
    obtain ⟨hx, hy⟩ := not_or.1 h
    simp only [updates, skipUpdate_setReg, State.reg_setReg_ne s (Ne.symm hx),
      State.reg_setReg_ne s (Ne.symm hy)]
  | seImm x | sneImm x | addImm x | shr x | shl x | ldDtVx x | ldStVx x | addI x | ldF x | ldB x | skp x | sknp x =>
    have hx : (s.setReg r b).reg x = s.reg x := State.reg_setReg_ne s (Ne.symm h) b
    simp only [updates, skipUpdate_setReg, State.pressed_setReg, State.setReg_i, hx]
  | ldReg x y => simp only [updates, State.reg_setReg_ne s (Ne.symm h)]
  | jpV0 nnn => simp only [updates, State.reg_setReg_ne s (Ne.symm h)]
  | _ => rfl

/-! ### The timers over an instruction and over a step -/

theorem Update.apply_input (u : Update) (s : State) : (u.apply s).input = s.input := by
  cases u <;> rfl

/-- No instruction changes the inputs of its own cycle. -/
theorem exec_input {i : Instr} {s t : State} (h : exec i s = .next t) : t.input = s.input := by
  rw [eq_applyAll_of_exec h]
  exact State.applyAll_induction (P := fun t => t.input = s.input)
    (fun u _ t ht => (u.apply_input t).trans ht) rfl

theorem mem_blockBytes {e : Element} {base n : Nat} :
    e ∈ blockBytes base n ↔ ∃ k, k < n ∧ e = byteAt (base + k) := Iff.rfl

theorem mem_allPixels {e : Element} : e ∈ allPixels ↔ ∃ x y, e = .pixel x y := Iff.rfl

theorem mem_regsTo {e : Element} {x : Nibble} : e ∈ regsTo x ↔ ∃ r : Nibble, r ≤ x ∧ e = .reg r := Iff.rfl

theorem mem_writes_call {e : Element} {nnn : Addr} {s : State} : e ∈ writes (.call nnn) s ↔
    e = .pc ∨ e = .sp ∨ e = .evt ∨ ∃ h : s.sp.val < 16, e = .entry ⟨s.sp.val, h⟩ := Iff.rfl

/-- Only Fx15 writes DT (R28). -/
theorem dt_notMem_writes {i : Instr} (h : ∀ x, i ≠ .ldDtVx x) (s : State) : Element.dt ∉ writes i s := by
  cases i with
  | ldDtVx x => exact absurd rfl (h x)
  | call nnn => simp [mem_writes_call]
  | _ => simp [writes, mem_blockBytes, mem_allPixels, mem_regsTo, byteAt]

/-- Only Fx18 writes ST (R29). -/
theorem st_notMem_writes {i : Instr} (h : ∀ x, i ≠ .ldStVx x) (s : State) : Element.st ∉ writes i s := by
  cases i with
  | ldStVx x => exact absurd rfl (h x)
  | call nnn => simp [mem_writes_call]
  | _ => simp [writes, mem_blockBytes, mem_allPixels, mem_regsTo, byteAt]

/-- The timers at the end of a step: what execute leaves in them, less the tick (R126). -/
theorem timers_of_exec {s t : State} {i : Instr} (h : exec i s.beginCycle = .next t) :
    t.endCycle.dt.toNat = t.dt.toNat - s.input.tick.toNat ∧
      t.endCycle.st.toNat = t.st.toNat - s.input.tick.toNat := by
  have hi : t.input = s.input := (exec_input h).trans s.beginCycle_input
  rw [State.endCycle_dt, State.endCycle_st, hi]
  exact ⟨countDown_toNat _ _, countDown_toNat _ _⟩

end Sys2Proof.Machine
end

section
/-! SUPPORT. The host's writes as frames, the reset bytes, the events of a draw and the glyph's address. -/

namespace Sys2Proof.Machine

/-! ### The host's writes -/

theorem OnlyChanges.setKey (w : Word) (s : State) : OnlyChanges {.key} s (s.setKey w) := by
  intro d hd
  cases d with
  | key => exact absurd rfl hd
  | _ => rfl

theorem OnlyChanges.present (tick : Bool) (rnd : Byte) (s : State) :
    OnlyChanges {.inputs} s (s.present tick rnd) := by
  intro d hd
  cases d with
  | inputs => exact absurd rfl hd
  | _ => rfl

theorem State.hostWrites_key (p : Ports) (s : State) : (s.hostWrites p).key = p.keyWrite.getD s.key := by
  rw [State.hostWrites_eq]

theorem State.hostWrites_evt (p : Ports) (s : State) : (s.hostWrites p).evt = s.evt := by
  rw [State.hostWrites_eq]

theorem State.hostWrites_none {p : Ports} (h : p.memWrite = none) (s : State) :
    s.hostWrites p = s.setKey (p.keyWrite.getD s.key) := by
  rw [State.hostWrites_eq, h]; rfl

theorem State.hostWrites_byte {p : Ports} {a : Addr} {b : Byte} (h : p.memWrite = some (a, b)) (s : State) :
    s.hostWrites p = (s.poke a.toNat b).setKey (p.keyWrite.getD s.key) := by
  rw [State.hostWrites_eq, h]; rfl

/-- A clock with no byte to write changes KEY at most (R51). -/
theorem OnlyChanges.hostWrites_none {p : Ports} (h : p.memWrite = none) (s : State) :
    OnlyChanges {.key} s (s.hostWrites p) := by
  rw [State.hostWrites_none h]
  exact OnlyChanges.setKey _ s

/-- A clock with a byte to write stores it and changes KEY besides at most (R50, R51). -/
theorem hostWrites_byte_spec {p : Ports} {a : Addr} {b : Byte} (h : p.memWrite = some (a, b)) (s : State) :
    (s.hostWrites p).peek a.toNat = b ∧ OnlyChanges {byteAt a.toNat, .key} s (s.hostWrites p) := by
  rw [State.hostWrites_byte h]
  constructor
  · rw [State.setKey_peek, State.peek_poke, if_pos rfl]
  · have hp := (OnlyChanges.poke a.toNat b s).mono (w' := {byteAt a.toNat, .key}) (by simp)
    exact hp.trans ((OnlyChanges.setKey _ _).mono (by simp))

/-- The host's writes, then the inputs of the cycle. -/
theorem OnlyChanges.present_of {w : Set Element} {s t : State} (h : OnlyChanges w s t) (tick : Bool) (rnd : Byte) :
    OnlyChanges (w ∪ {.inputs}) s (t.present tick rnd) :=
  (h.mono Set.subset_union_left).trans ((OnlyChanges.present tick rnd t).mono Set.subset_union_right)

theorem portStep_keeps_evtBit {p : Ports} {s t : State} {e : Event} (hr : p.rst = false)
    (h : portStep p s = .next t) (he : s.evtBit e = true) : t.evtBit e = true := by
  have hw : (s.hostWrites p).evtBit e = true := by rw [State.evtBit, State.hostWrites_evt]; exact he
  cases hc : p.cycle with
  | true =>
    rw [portStep_cycle s hr hc] at h
    exact step_keeps_evtBit h hw
  | false =>
    rw [portStep_idle s hr hc] at h
    rwa [← Host.Outcome.next.inj h]

/-! ### The bytes at reset -/

theorem State.hostReset_peek (s : State) {a : Nat} (h : a < 4096) : s.hostReset.peek a = initialByte a :=
  congrArg initialByte (Nat.mod_eq_of_lt h)

theorem initialByte_font (k : Nat) : initialByte (0x050 + k) = font.getD k 0 := by
  rw [initialByte, if_pos (Nat.le_add_right _ _), Nat.add_sub_cancel_left]; rfl

theorem font_length : font.length = 80 := rfl

theorem initialByte_zero {a : Nat} (h : ¬ (0x050 ≤ a ∧ a ≤ 0x09F)) : initialByte a = 0 := by
  unfold initialByte
  split
  · exact List.getD_eq_default _ _ (by rw [font_length]; omega)
  · rfl

/-! ### The glyph's address -/

theorem lowIndex_toNat (v : Byte) : (lowIndex v).toNat = v.toNat % 16 := by
  simp [lowIndex, BitVec.extractLsb'_toNat]

theorem glyphAddr_toNat (d : Nibble) : (glyphAddr d).toNat = 0x050 + 5 * d.toNat := by
  rw [glyphAddr, BitVec.toNat_ofNat]
  have := nibble_lt d
  omega

/-! ### The events of a draw -/

theorem State.evtBit_setFb (f : FrameBuffer) (e : Event) (s : State) : (s.setFb f).evtBit e = s.evtBit e := rfl
theorem State.evtBit_setReg (x : Nibble) (b : Byte) (e : Event) (s : State) :
    (s.setReg x b).evtBit e = s.evtBit e := rfl

/-- A draw clips a bit exactly when the sprite has a set bit off the screen (R224). -/
theorem State.drawing_clipped (x y n : Nibble) (s : State) :
    (s.drawing x y n).clipped = true ↔ ∃ px py, ¬ onScreen px py ∧ s.spriteAt x y n px py = true := by
  rw [State.drawing, drawRows_clipped]
  exact or_iff_right Bool.false_ne_true

/-- EVT after DRW. -/
theorem evtBit_of_drw {x y n : Nibble} {s t : State} (h : exec (.drw x y n) s = .next t) (e : Event) :
    t.evtBit e = (s.evtBit e || (((s.drawing x y n).clipped && e == .clip) ||
      ((blockWraps n.toNat s.i.toNat && e == .addrWrap) || ((x == vf || y == vf) && e == .vfArg)))) := by
  rw [eq_applyAll_of_exec h]
  simp only [updates, State.applyAll_cons, State.applyAll_nil, Update.apply, State.evtBit_setFb,
    State.evtBit_setReg, State.evtBit_eventIf]
  ac_rfl

end Sys2Proof.Machine
end

section
/-! The statements of 10_state.md settled, in the order of their tiers. -/

namespace Sys2Proof.Machine

/-- Settles O12: the beginning and the end of a cycle leave memory alone, and every update keeps the canonical form. -/
theorem stepKeepsMemoryCanonical : Obligations.StepKeepsMemoryCanonical := by
  intro s t hs h
  rw [eq_applyAll_of_step h]
  refine State.applyAll_induction (P := fun t => t.mem.wf = true) (fun u _ t => u.apply_keeps_wf t) ?_
  rw [State.beginCycle_mem]
  exact hs

/-- Settles O8: Fx15 and Fx07 by their one update, every other instruction by its frame, and the tick after it. -/
theorem delayTimerOverAStep : Obligations.DelayTimerOverAStep := by
  intro s
  obtain ⟨t, ht⟩ : ∃ t, exec (decodeWord s.nextOpcode) s.beginCycle = .next t := ⟨_, exec_eq_applyAll _ _⟩
  obtain ⟨hdt, -⟩ := timers_of_exec ht
  refine ⟨t.endCycle, step_of_exec ht, fun x hx => ?_, fun hx => ?_, fun x hx => ?_⟩
  · rw [hx] at ht
    have hset : t = s.beginCycle.setDt (s.beginCycle.reg x) := eq_applyAll_of_exec ht
    rw [hdt, hset, State.setDt_dt, State.beginCycle_reg]
  · have hkeep : t.dt = s.beginCycle.dt := exec_onlyChanges ht .dt (dt_notMem_writes hx _)
    rw [hdt, hkeep, State.beginCycle_dt]
  · rw [hx] at ht
    have hread : t = s.beginCycle.setReg x s.beginCycle.dt := eq_applyAll_of_exec ht
    rw [State.endCycle_reg, hread, State.reg_setReg_self, State.beginCycle_dt]

/-- Settles O9: Fx18 by its one update, every other instruction by its frame, and the tick after it. -/
theorem soundTimerOverAStep : Obligations.SoundTimerOverAStep := by
  intro s
  obtain ⟨t, ht⟩ : ∃ t, exec (decodeWord s.nextOpcode) s.beginCycle = .next t := ⟨_, exec_eq_applyAll _ _⟩
  obtain ⟨-, hst⟩ := timers_of_exec ht
  refine ⟨t.endCycle, step_of_exec ht, fun x hx => ?_, fun hx => ?_⟩
  · rw [hx] at ht
    have hset : t = s.beginCycle.setSt (s.beginCycle.reg x) := eq_applyAll_of_exec ht
    rw [hst, hset, State.setSt_st, State.beginCycle_reg]
  · have hkeep : t.st = s.beginCycle.st := exec_onlyChanges ht .st (st_notMem_writes hx _)
    rw [hst, hkeep, State.beginCycle_st]

/-- Settles O14: every update keeps the bits set and commutes with a change of EVT, which no instruction reads. -/
theorem evtIsStickyAndWithoutInfluence : Obligations.EvtIsStickyAndWithoutInfluence := by
  refine ⟨fun s t e h he => step_keeps_evtBit h he, fun p s t e hr h he => portStep_keeps_evtBit hr h he,
    fun s => rfl, fun s t b h => ?_⟩
  obtain ⟨b', hb⟩ := step_withEvt b h
  exact ⟨t.withEvt b', hb, rfl⟩

/-- Settles O15: every update of an instruction writes inside its row. -/
theorem instructionsWriteOnlyTheirElements : Obligations.InstructionsWriteOnlyTheirElements :=
  fun _ _ _ h => exec_onlyChanges h

/-- Settles O16: the updates are the same, and each overwrites the register or commutes with the write to it. -/
theorem instructionsReadOnlyTheirRegisters : Obligations.InstructionsReadOnlyTheirRegisters := by
  intro i s t r b hr h
  refine ⟨_, exec_eq_applyAll i (s.setReg r b), ?_⟩
  rw [updates_setReg hr, eq_applyAll_of_exec h]
  rcases State.applyAll_setReg (updates i s) r b s with ho | ⟨hc, hreg⟩
  · rw [ho]
    exact ⟨OnlyChanges.refl _ _, .inl rfl⟩
  · rw [hc]
    exact ⟨OnlyChanges.setReg _ r b, .inr ⟨State.reg_setReg_self _ r b, hreg⟩⟩

/-- Settles O39: the events among the updates of DRW. -/
theorem drwRecordsItsEvents : Obligations.DrwRecordsItsEvents := by
  intro x y n s
  have h := exec_eq_applyAll (.drw x y n) s
  refine ⟨_, h, Records.of_evt (evtBit_of_drw h) fun e => ?_⟩
  simp only [Bool.or_eq_true, Bool.and_eq_true, beq_iff_eq, State.drawing_clipped, blockWraps_iff]
  exact or_congr and_comm (or_congr and_comm and_comm)

/-- Settles O56: the cycle starts from the host's writes with the ports presented as its inputs. -/
theorem hostWritesBeforeTheCycle : Obligations.HostWritesBeforeTheCycle := by
  intro p s hr hc
  refine ⟨_, portStep_cycle s hr hc, rfl, rfl, ?_, fun a b h => ?_, fun h => ?_⟩
  · rw [State.beginCycle_key, State.present_input, State.present_key, State.hostWrites_key, Option.getD_none]
  · obtain ⟨hb, hf⟩ := hostWrites_byte_spec h s
    exact ⟨hb, (hf.present_of p.tick p.rnd).mono (by simp [Set.insert_subset_iff])⟩
  · exact (OnlyChanges.hostWrites_none h s).present_of p.tick p.rnd

/-- Settles O13: the reset memory lists nothing. -/
theorem resetMemoryIsCanonical : Obligations.ResetMemoryIsCanonical := reset_mem_wf

/-- Settles O43: the two updates of LD F. -/
theorem ldFPointsAtTheGlyph : Obligations.LdFPointsAtTheGlyph := by
  intro x s
  have h := exec_eq_applyAll (.ldF x) s
  refine ⟨_, h, ?_, Records.of_evt (b := fun e => indexWraps (s.reg x) && e == .idxWrap)
    (fun e => State.evtBit_eventIf s _ .idxWrap e) fun e => ?_, exec_onlyChanges h⟩
  · rw [← lowIndex_toNat, ← glyphAddr_toNat]; rfl
  · rw [Bool.and_eq_true, indexWraps, decide_eq_true_iff, beq_iff_eq, and_comm]

/-- Settles O54: `rst` wins, and an address that nothing lists reads as its content at reset. -/
theorem resetSetsEveryElement : Obligations.ResetSetsEveryElement := by
  intro p s hr
  refine ⟨s.hostReset, portStep_rst s hr, fun r => ?_, rfl, rfl, rfl, fun k => ?_, rfl, rfl, fun k hk => ?_,
    fun a ha hf => ?_, pixelAt_blankFb, rfl, rfl, rfl⟩
  · exact Vector.getElem_replicate _
  · exact Vector.getElem_replicate _
  · rw [State.hostReset_peek s (by omega), initialByte_font]
  · rw [State.hostReset_peek s ha, initialByte_zero hf]

/-- Settles O55: the clock is the host's writes alone. -/
theorem hostWritesBetweenCycles : Obligations.HostWritesBetweenCycles := by
  intro p s hr hc
  exact ⟨_, portStep_idle s hr hc, State.hostWrites_key p s, fun a b h => hostWrites_byte_spec h s,
    fun h => OnlyChanges.hostWrites_none h s⟩

/-- Settles O58: index and column and row determine each other below 2048. -/
theorem hostReadsPixelsAndSound : Obligations.HostReadsPixelsAndSound := by
  intro s
  refine ⟨fun x y hx hy => ?_, ?_⟩
  · have ha : (BitVec.ofNat 11 (y * 64 + x)).toNat = y * 64 + x := by
      rw [BitVec.toNat_ofNat, Nat.mod_eq_of_lt (by omega)]
    rw [State.fbRead, ha]
    congr 1 <;> omega
  · rw [State.soundOn, bne_iff_ne, ← BitVec.toNat_ne_iff_ne]; rfl

end Sys2Proof.Machine
end

section
/-! SUPPORT. The frame of a cycle's beginning, and one event as what a change of state records. -/

namespace Sys2Proof.Machine

/-- A state whose EVT is the old one with the event `e` under the condition `c` records `e` exactly when `c` holds. -/
theorem Records.of_evtWith {s t : State} {c : Bool} {e : Event} {q : Prop} (h : t.evt = evtWith c e s.evt)
    (hc : c = true ↔ q) : Records (fun e' => e' = e ∧ q) s t := by
  refine Records.of_evt (b := fun e' => c && e' == e) (fun e' => ?_) fun e' => ?_
  · rw [State.evtBit, State.evtBit, h, evtWith_bit]
  · rw [Bool.and_eq_true, beq_iff_eq, hc, and_comm]

/-- An access records ADDR_WRAP exactly when its address is 4096 or more (R63). -/
theorem Records.noteAddr (a : Nat) (s : State) :
    Records (fun e => e = .addrWrap ∧ 4096 ≤ a) s (s.noteAddr a) :=
  Records.of_evtWith rfl decide_eq_true_iff

theorem OnlyChanges.noteAddr (a : Nat) (s : State) : OnlyChanges {.evt} s (s.noteAddr a) :=
  OnlyChanges.eventIf s _ .addrWrap

/-- One of the two fetch accesses is at 4096 or more. -/
theorem blockWraps_two_iff (a : Nat) : blockWraps 2 a = true ↔ 4096 ≤ a ∨ 4096 ≤ a + 1 := by
  rw [blockWraps, decide_eq_true_iff]
  omega

theorem OnlyChanges.beginCycle (s : State) : OnlyChanges {.op, .pc, .key, .evt} s s.beginCycle := by
  intro d hd
  rw [State.beginCycle_spec]
  cases d with
  | op | pc | key | evt => exact absurd (by simp) hd
  | _ => rfl

/-- A read after a write: the byte written at the same reduced address, else the byte that stood there. -/
theorem State.peek_memWrite (a c : Nat) (b : Byte) (s : State) :
    (s.memWrite a b).peek c = if c % 4096 = a % 4096 then b else s.peek c := by
  rw [State.memWrite_eq, State.peek_poke, State.noteAddr_eq, State.eventIf_peek]

/-- A write changes its byte and EVT at most. -/
theorem OnlyChanges.memWrite (a : Nat) (b : Byte) (s : State) :
    OnlyChanges {byteAt a, .evt} s (s.memWrite a b) :=
  ((OnlyChanges.noteAddr a s).mono (by simp)).trans ((OnlyChanges.poke a b _).mono (by simp))

end Sys2Proof.Machine
end

section
/-! The statements of 20_memory.md settled. -/

namespace Sys2Proof.Machine

/-- Settles O7: every element of the state that the beginning of a cycle leaves is known. -/
theorem fetchAndAdvance : Obligations.FetchAndAdvance := by
  intro s
  refine ⟨?_, ?_, s.beginCycle_key, Records.of_evtWith s.beginCycle_evt (blockWraps_two_iff _),
    OnlyChanges.beginCycle s⟩
  · rw [State.beginCycle_op, State.nextOpcode, wordOfBytes_toNat]
  · rw [State.beginCycle_pc, BitVec.toNat_add]; rfl

/-- Settles O53: an access is its event and, for a write, the store of one byte at the reduced address. -/
theorem memoryReadsTheLastWrite : Obligations.MemoryReadsTheLastWrite := by
  intro a c b s
  exact ⟨State.peek_memWrite a c b s, Records.noteAddr a s, OnlyChanges.memWrite a b s, Records.noteAddr a s,
    OnlyChanges.noteAddr a s⟩

end Sys2Proof.Machine
end

section
/-! SUPPORT. Decode and encode undo each other, one family of opcodes at a time (30_encoding.md R92–R105). -/

namespace Sys2Proof

/-! ### An opcode put together from its fields -/

theorem append_nnn {op : Word} {p : Nibble} (hp : fieldPrefix op = p) : p ++ fieldNnn op = op := by
  subst hp
  apply BitVec.eq_of_toNat_eq
  rw [toNat_nnn, fieldPrefix_toNat, fieldNnn_toNat]
  have := op.isLt
  omega

theorem append_xkk {op : Word} {p : Nibble} {kk : Byte} (hp : fieldPrefix op = p) (hk : fieldKk op = kk) :
    p ++ fieldX op ++ kk = op := by
  subst hp hk
  apply BitVec.eq_of_toNat_eq
  rw [toNat_xkk, fieldPrefix_toNat, fieldX_toNat, fieldKk_toNat]
  have := op.isLt
  omega

theorem append_xyn {op : Word} {p n : Nibble} (hp : fieldPrefix op = p) (hn : fieldN op = n) :
    p ++ fieldX op ++ fieldY op ++ n = op := by
  subst hp hn
  apply BitVec.eq_of_toNat_eq
  rw [toNat_xyn, fieldPrefix_toNat, fieldX_toNat, fieldY_toNat, fieldN_toNat]
  have := op.isLt
  omega

theorem append_dc {op : Word} {p n : Nibble} (hp : fieldPrefix op = p) (hn : fieldN op = n) :
    p ++ fieldDc op ++ n = op := by
  subst hp hn
  apply BitVec.eq_of_toNat_eq
  rw [toNat_dc, fieldPrefix_toNat, fieldDc_toNat, fieldN_toNat]
  have := op.isLt
  omega

/-! ### The selectors of the no-op handler -/

theorem isSysSelector_iff (n : Nibble) : isSysSelector n = true ↔ n ≠ 0x0#4 ∧ n ≠ 0xE#4 := by
  simp [isSysSelector]

theorem isUnmapped8_iff (n : Nibble) :
    isUnmapped8 n = true ↔ n ≠ 0x0#4 ∧ n ≠ 0x1#4 ∧ n ≠ 0x2#4 ∧ n ≠ 0x3#4 ∧ n ≠ 0x4#4 ∧ n ≠ 0x5#4 ∧
      n ≠ 0x6#4 ∧ n ≠ 0x7#4 ∧ n ≠ 0xE#4 := by
  revert n; decide

theorem isUnmappedE_iff (n : Nibble) : isUnmappedE n = true ↔ n ≠ 0xE#4 ∧ n ≠ 0x1#4 := by
  simp [isUnmappedE]

theorem isUnmappedF_iff (k : Byte) :
    isUnmappedF k = true ↔ k ≠ 0x07#8 ∧ k ≠ 0x0A#8 ∧ k ≠ 0x15#8 ∧ k ≠ 0x18#8 ∧ k ≠ 0x1E#8 ∧ k ≠ 0x29#8 ∧
      k ≠ 0x33#8 ∧ k ≠ 0x55#8 ∧ k ≠ 0x65#8 := by
  simp [isUnmappedF]

theorem isUnmapped_iff (op : Word) :
    isUnmapped op = true ↔ (fieldPrefix op = 0x8#4 ∧ isUnmapped8 (fieldN op) = true) ∨
      (fieldPrefix op = 0xE#4 ∧ isUnmappedE (fieldN op) = true) ∨
      (fieldPrefix op = 0xF#4 ∧ isUnmappedF (fieldKk op) = true) := by
  simp only [isUnmapped, fieldPrefix, fieldN, fieldKk, Bool.or_eq_true, Bool.and_eq_true, beq_iff_eq, or_assoc]

/-! ### Decoding an encoded instruction -/

theorem decodeWord_sys {nnn : Addr} (h : isSysSelector (nnn.extractLsb' 0 4) = true) :
    decodeWord (encode (.sys nnn)) = .sys nnn := by
  obtain ⟨h0, hE⟩ := (isSysSelector_iff _).1 h
  simp [encode, decodeWord, decodeFamily0, h0, hE]

theorem decodeWord_unmapped {op : Word} (h : isUnmapped op = true) : decodeWord op = .unmapped op := by
  rcases (isUnmapped_iff op).1 h with ⟨hp, hs⟩ | ⟨hp, hs⟩ | ⟨hp, hs⟩
  · simp [decodeWord, hp, decodeFamily8, (isUnmapped8_iff _).1 hs]
  · simp [decodeWord, hp, decodeFamilyE, (isUnmappedE_iff _).1 hs]
  · simp [decodeWord, hp, decodeFamilyF, (isUnmappedF_iff _).1 hs]

/-- The fields of an encoding are the operands it was made of, so that each level of the dispatch finds its entry. -/
theorem decodeWord_encode {i : Instr} (h : i.wellFormed = true) : decodeWord (encode i) = i := by
  cases i with
  | sys nnn => exact decodeWord_sys h
  | unmapped op => exact decodeWord_unmapped h
  | cls | ret => simp [encode, decodeWord, decodeFamily0]
  | ldReg | orReg | andReg | xorReg | addReg | subReg | shr | subn | shl =>
    simp [encode, decodeWord, decodeFamily8]
  | skp | sknp => simp [encode, decodeWord, decodeFamilyE]
  | ldVxDt | ldVxK | ldDtVx | ldStVx | addI | ldF | ldB | storeRegs | loadRegs =>
    simp [encode, decodeWord, decodeFamilyF]
  | _ => simp [encode, decodeWord]

/-! ### Encoding a decoded opcode -/

/-- The instruction is well-formed and its opcode is `op`. -/
def Instr.StandsFor (i : Instr) (op : Word) : Prop := i.wellFormed = true ∧ encode i = op

/-- One comparison of the dispatch. -/
theorem Instr.StandsFor.ite {c : Prop} [Decidable c] {i j : Instr} {op : Word} (hi : c → i.StandsFor op)
    (hj : ¬ c → j.StandsFor op) : (if c then i else j).StandsFor op := by
  split
  · exact hi ‹c›
  · exact hj ‹¬ c›

theorem standsFor_sys {op : Word} (hp : fieldPrefix op = 0x0#4) (hn : isSysSelector (fieldN op) = true) :
    (Instr.sys (fieldNnn op)).StandsFor op := by
  refine ⟨?_, append_nnn hp⟩
  rwa [Instr.wellFormed, ← fieldN_nnn 0x0#4, append_nnn hp]

theorem standsFor_unmapped {op : Word} (h : isUnmapped op = true) : (Instr.unmapped op).StandsFor op := ⟨h, rfl⟩

theorem decodeFamily0_standsFor {op : Word} (hp : fieldPrefix op = 0x0#4) : (decodeFamily0 op).StandsFor op := by
  refine .ite (fun h => ⟨rfl, append_dc hp h⟩) fun h0 => ?_
  refine .ite (fun h => ⟨rfl, append_dc hp h⟩) fun hE => ?_
  exact standsFor_sys hp ((isSysSelector_iff _).2 ⟨h0, hE⟩)

theorem decodeFamily8_standsFor {op : Word} (hp : fieldPrefix op = 0x8#4) : (decodeFamily8 op).StandsFor op := by
  unfold decodeFamily8
  split_ifs with h0 h1 h2 h3 h4 h5 h6 h7 hE
  case neg =>
    have hn := (isUnmapped8_iff (fieldN op)).2 ⟨h0, h1, h2, h3, h4, h5, h6, h7, hE⟩
    exact standsFor_unmapped ((isUnmapped_iff op).2 (.inl ⟨hp, hn⟩))
  all_goals exact ⟨rfl, append_xyn hp ‹_›⟩

theorem decodeFamilyE_standsFor {op : Word} (hp : fieldPrefix op = 0xE#4) : (decodeFamilyE op).StandsFor op := by
  refine .ite (fun h => ⟨rfl, append_xyn hp h⟩) fun hE => ?_
  refine .ite (fun h => ⟨rfl, append_xyn hp h⟩) fun h1 => ?_
  have hn := (isUnmappedE_iff (fieldN op)).2 ⟨hE, h1⟩
  exact standsFor_unmapped ((isUnmapped_iff op).2 (.inr (.inl ⟨hp, hn⟩)))

theorem decodeFamilyF_standsFor {op : Word} (hp : fieldPrefix op = 0xF#4) : (decodeFamilyF op).StandsFor op := by
  unfold decodeFamilyF
  split_ifs with h07 h0A h15 h18 h1E h29 h33 h55 h65
  case neg =>
    have hk := (isUnmappedF_iff (fieldKk op)).2 ⟨h07, h0A, h15, h18, h1E, h29, h33, h55, h65⟩
    exact standsFor_unmapped ((isUnmapped_iff op).2 (.inr (.inr ⟨hp, hk⟩)))
  all_goals exact ⟨rfl, append_xkk hp ‹_›⟩

/-- The last of the sixteen prefixes (R95). -/
theorem prefix_eq_F {p : Nibble} (h : p ≠ 0x0#4 ∧ p ≠ 0x1#4 ∧ p ≠ 0x2#4 ∧ p ≠ 0x3#4 ∧ p ≠ 0x4#4 ∧ p ≠ 0x5#4 ∧
    p ≠ 0x6#4 ∧ p ≠ 0x7#4 ∧ p ≠ 0x8#4 ∧ p ≠ 0x9#4 ∧ p ≠ 0xA#4 ∧ p ≠ 0xB#4 ∧ p ≠ 0xC#4 ∧ p ≠ 0xD#4 ∧ p ≠ 0xE#4) :
    p = 0xF#4 := by
  revert p; decide

/-- Every opcode is the encoding of the well-formed instruction that it decodes to. -/
theorem decodeWord_standsFor (op : Word) : (decodeWord op).StandsFor op := by
  refine .ite decodeFamily0_standsFor fun h0 => ?_
  refine .ite (fun h => ⟨rfl, append_nnn h⟩) fun h1 => ?_
  refine .ite (fun h => ⟨rfl, append_nnn h⟩) fun h2 => ?_
  refine .ite (fun h => ⟨rfl, append_xkk h rfl⟩) fun h3 => ?_
  refine .ite (fun h => ⟨rfl, append_xkk h rfl⟩) fun h4 => ?_
  refine .ite (fun h => ⟨rfl, append_xyn h rfl⟩) fun h5 => ?_
  refine .ite (fun h => ⟨rfl, append_xkk h rfl⟩) fun h6 => ?_
  refine .ite (fun h => ⟨rfl, append_xkk h rfl⟩) fun h7 => ?_
  refine .ite decodeFamily8_standsFor fun h8 => ?_
  refine .ite (fun h => ⟨rfl, append_xyn h rfl⟩) fun h9 => ?_
  refine .ite (fun h => ⟨rfl, append_nnn h⟩) fun hA => ?_
  refine .ite (fun h => ⟨rfl, append_nnn h⟩) fun hB => ?_
  refine .ite (fun h => ⟨rfl, append_xkk h rfl⟩) fun hC => ?_
  refine .ite (fun h => ⟨rfl, append_xyn h rfl⟩) fun hD => ?_
  refine .ite decodeFamilyE_standsFor fun hE => ?_
  exact decodeFamilyF_standsFor
    (prefix_eq_F ⟨h0, h1, h2, h3, h4, h5, h6, h7, h8, h9, hA, hB, hC, hD, hE⟩)

end Sys2Proof
end

section
/-! SUPPORT. The rows of the opcode table against decode (30_encoding.md R104): a row that accepts an opcode fixes the
fields on which the dispatch compares it. -/

namespace Sys2Proof

/-! ### The fields that a row fixes -/

/-- A field that the row's mask covers has the value of the row's pattern. -/
theorem extractLsb'_of_accepts (k n : Nat) {r : OpcodeRow} {op : Word} (h : r.accepts op = true)
    (hm : r.mask.extractLsb' k n = BitVec.allOnes n) : op.extractLsb' k n = r.pattern.extractLsb' k n := by
  rw [← beq_iff_eq.1 h, BitVec.extractLsb'_and, hm, BitVec.and_allOnes]

theorem fieldPrefix_of_accepts {r : OpcodeRow} {op : Word} (h : r.accepts op = true)
    (hm : fieldPrefix r.mask = 0xF#4) : fieldPrefix op = fieldPrefix r.pattern :=
  extractLsb'_of_accepts 12 4 h hm

theorem fieldN_of_accepts {r : OpcodeRow} {op : Word} (h : r.accepts op = true)
    (hm : fieldN r.mask = 0xF#4) : fieldN op = fieldN r.pattern :=
  extractLsb'_of_accepts 0 4 h hm

theorem fieldKk_of_accepts {r : OpcodeRow} {op : Word} (h : r.accepts op = true)
    (hm : fieldKk r.mask = 0xFF#8) : fieldKk op = fieldKk r.pattern :=
  extractLsb'_of_accepts 0 8 h hm

/-! ### No opcode matches two rows of priority 0 -/

/-- Some bit that both masks cover differs between the two patterns. -/
def OpcodeRow.differs (r r' : OpcodeRow) : Bool := r.pattern &&& r'.mask != r'.pattern &&& r.mask

theorem OpcodeRow.not_accepts_both {r r' : OpcodeRow} (hd : r.differs r' = true) (op : Word) :
    ¬ (r.accepts op = true ∧ r'.accepts op = true) := by
  rintro ⟨h, h'⟩
  refine bne_iff_ne.1 hd ?_
  rw [← beq_iff_eq.1 h, ← beq_iff_eq.1 h', BitVec.and_assoc, BitVec.and_assoc, BitVec.and_comm r.mask]

theorem opcodeRows0_pairwise_differ : opcodeRows0.Pairwise (fun r r' => r.differs r' = true) := by
  decide

/-! ### The instruction of an opcode that a row accepts -/

theorem mnemonic_of_accepts_low {r : OpcodeRow} {op : Word} (hr : r ∈ opcodeRowsLow) (h : r.accepts op = true) :
    (decodeWord op).mnemonic = r.mnemonic := by
  have hp := fieldPrefix_of_accepts h
  have hn := fieldN_of_accepts h
  simp only [opcodeRowsLow, List.mem_cons, List.not_mem_nil, or_false] at hr
  rcases hr with rfl | rfl | rfl | rfl | rfl | rfl | rfl | rfl | rfl
  -- CLS and RET, then the rows of the prefixes 1 to 7
  iterate 2 · rw [decodeWord, hp rfl, decodeFamily0, hn rfl]; rfl
  all_goals rw [decodeWord, hp rfl]; rfl

theorem mnemonic_of_accepts_high {r : OpcodeRow} {op : Word} (hr : r ∈ opcodeRowsHigh) (h : r.accepts op = true) :
    (decodeWord op).mnemonic = r.mnemonic := by
  have hp := fieldPrefix_of_accepts h
  have hn := fieldN_of_accepts h
  simp only [opcodeRowsHigh, List.mem_cons, List.not_mem_nil, or_false] at hr
  rcases hr with rfl | rfl | rfl | rfl | rfl | rfl | rfl | rfl | rfl | rfl | rfl | rfl | rfl | rfl | rfl | rfl
  -- family 8, the rows of the prefixes 9 to D, family E
  iterate 9 · rw [decodeWord, hp rfl, decodeFamily8, hn rfl]; rfl
  iterate 5 · rw [decodeWord, hp rfl]; rfl
  all_goals rw [decodeWord, hp rfl, decodeFamilyE, hn rfl]; rfl

theorem mnemonic_of_accepts_F {r : OpcodeRow} {op : Word} (hr : r ∈ opcodeRowsF) (h : r.accepts op = true) :
    (decodeWord op).mnemonic = r.mnemonic := by
  have hp := fieldPrefix_of_accepts h
  have hk := fieldKk_of_accepts h
  simp only [opcodeRowsF, List.mem_cons, List.not_mem_nil, or_false] at hr
  rcases hr with rfl | rfl | rfl | rfl | rfl | rfl | rfl | rfl | rfl
  all_goals rw [decodeWord, hp rfl, decodeFamilyF, hk rfl]; rfl

/-- A row of priority 0 names the instruction of every opcode that it accepts. -/
theorem mnemonic_of_accepts {r : OpcodeRow} {op : Word} (hr : r ∈ opcodeRows0) (h : r.accepts op = true) :
    (decodeWord op).mnemonic = r.mnemonic := by
  rw [opcodeRows0, List.mem_append, List.mem_append] at hr
  rcases hr with (hr | hr) | hr
  · exact mnemonic_of_accepts_low hr h
  · exact mnemonic_of_accepts_high hr h
  · exact mnemonic_of_accepts_F hr h

/-! ### The first row that accepts an opcode -/

open Laws.MatchesRow in
/-- The opcode of every well-formed instruction matches its own row. -/
theorem matchesRow (i : Instr) : Laws.MatchesRow.Statement i :=
  match i with
  | .cls dc => cls dc
  | .ret dc => ret dc
  | .jp nnn => jp nnn
  | .call nnn => call nnn
  | .seImm x kk => seImm x kk
  | .sneImm x kk => sneImm x kk
  | .seReg x y n => seReg x y n
  | .ldImm x kk => ldImm x kk
  | .addImm x kk => addImm x kk
  | .ldReg x y => ldReg x y
  | .orReg x y => orReg x y
  | .andReg x y => andReg x y
  | .xorReg x y => xorReg x y
  | .addReg x y => addReg x y
  | .subReg x y => subReg x y
  | .shr x y => shr x y
  | .subn x y => subn x y
  | .shl x y => shl x y
  | .sneReg x y n => sneReg x y n
  | .ldI nnn => ldI nnn
  | .jpV0 nnn => jpV0 nnn
  | .rnd x kk => rnd x kk
  | .drw x y n => drw x y n
  | .skp x m => skp x m
  | .sknp x m => sknp x m
  | .ldVxDt x => ldVxDt x
  | .ldVxK x => ldVxK x
  | .ldDtVx x => ldDtVx x
  | .ldStVx x => ldStVx x
  | .addI x => addI x
  | .ldF x => ldF x
  | .ldB x => ldB x
  | .storeRegs x => storeRegs x
  | .loadRegs x => loadRegs x
  | .sys nnn => sys nnn
  | .unmapped op => unmapped op

/-- The row of an opcode's instruction accepts the opcode. -/
theorem exists_row_of_decode (op : Word) :
    ∃ r ∈ opcodeTable, r.accepts op = true ∧ r.mnemonic = (decodeWord op).mnemonic := by
  obtain ⟨hwf, henc⟩ := decodeWord_standsFor op
  obtain ⟨r, hr, ha⟩ := Option.map_eq_some_iff.1 (matchesRow (decodeWord op) hwf)
  rw [henc] at ha
  have hname := List.find?_some hr
  exact ⟨r, List.mem_of_find?_eq_some hr, ha, beq_iff_eq.1 hname⟩

/-- The row of priority 1. -/
def sysRow : OpcodeRow := ⟨"SYS_nnn", 0xF000#16, 0x0000#16⟩

/-- The row of priority 2, the catch-all. -/
def catchAllRow : OpcodeRow := ⟨"(unmapped)", 0x0000#16, 0x0000#16⟩

theorem opcodeTable_eq : opcodeTable = opcodeRows0 ++ [sysRow, catchAllRow] := rfl

/-- Family 0 never answers with the catch-all's instruction (R98). -/
theorem mnemonic_ne_catchAll {op : Word} (h : sysRow.accepts op = true) :
    catchAllRow.mnemonic ≠ (decodeWord op).mnemonic := by
  rw [decodeWord, fieldPrefix_of_accepts h rfl]
  show catchAllRow.mnemonic ≠ (decodeFamily0 op).mnemonic
  unfold decodeFamily0
  split_ifs <;> simp [Instr.mnemonic, catchAllRow]

/-- The first row that accepts an opcode names its instruction: a row of priority 0 by its fields; past those,
the row of the instruction is SYS or, where SYS does not accept, the catch-all. -/
theorem tableMnemonic_eq (op : Word) : tableMnemonic op = some (decodeWord op).mnemonic := by
  rw [tableMnemonic, opcodeTable_eq, List.find?_append]
  cases h0 : opcodeRows0.find? (·.accepts op) with
  | some r =>
    have ha := List.find?_some h0
    exact congrArg some (mnemonic_of_accepts (List.mem_of_find?_eq_some h0) ha).symm
  | none =>
    obtain ⟨r, hr, ha, hname⟩ := exists_row_of_decode op
    have hr0 : r ∉ opcodeRows0 := fun hm => List.find?_eq_none.1 h0 r hm ha
    rw [opcodeTable_eq, List.mem_append, or_iff_right hr0, List.mem_pair] at hr
    rw [Option.none_or, ← hname]
    rcases hr with rfl | rfl
    · simp [ha]
    · have hs : sysRow.accepts op = false := Bool.eq_false_iff.2 fun h => mnemonic_ne_catchAll h hname
      simp [hs, ha]

end Sys2Proof
end

section
/-! SUPPORT. The events an instruction records, read off its updates, and NONCANON as a condition on the opcode's
number (30_encoding.md R107). -/

namespace Sys2Proof.Machine

/-! ### The events among updates -/

/-- The update records the event. -/
def Update.records (e : Event) : Update → Bool
  | .event c e' => c && e == e'
  | .setReg _ _ | .setI _ | .setPc _ | .setSp _ | .setEntry _ _ | .setDt _ | .setSt _ | .poke _ _ | .setFb _ => false

@[simp] theorem Update.records_event (c : Bool) (e e' : Event) : (event c e').records e = (c && e == e') := rfl
@[simp] theorem Update.records_setReg (x : Nibble) (b : Byte) (e : Event) : (setReg x b).records e = false := rfl
@[simp] theorem Update.records_setI (w : Word) (e : Event) : (setI w).records e = false := rfl
@[simp] theorem Update.records_setPc (w : Word) (e : Event) : (setPc w).records e = false := rfl
@[simp] theorem Update.records_setSp (k : Fin 17) (e : Event) : (setSp k).records e = false := rfl
@[simp] theorem Update.records_setEntry (k : Fin 16) (w : Word) (e : Event) : (setEntry k w).records e = false := rfl
@[simp] theorem Update.records_setDt (b : Byte) (e : Event) : (setDt b).records e = false := rfl
@[simp] theorem Update.records_setSt (b : Byte) (e : Event) : (setSt b).records e = false := rfl
@[simp] theorem Update.records_poke (a : Nat) (b : Byte) (e : Event) : (poke a b).records e = false := rfl
@[simp] theorem Update.records_setFb (f : FrameBuffer) (e : Event) : (setFb f).records e = false := rfl

theorem Update.evtBit_apply (u : Update) (e : Event) (s : State) :
    (u.apply s).evtBit e = (s.evtBit e || u.records e) := by
  cases u with
  | event c e' => exact State.evtBit_eventIf s c e' e
  | _ => exact (Bool.or_false _).symm

/-- EVT after a list of updates: what was set, and the events among them. -/
theorem State.evtBit_applyAll (us : List Update) (e : Event) (s : State) :
    (s.applyAll us).evtBit e = (s.evtBit e || us.any (·.records e)) := by
  induction us generalizing s with
  | nil => exact (Bool.or_false _).symm
  | cons u us ih => rw [State.applyAll_cons, ih, Update.evtBit_apply, List.any_cons, Bool.or_assoc]

@[simp] theorem any_records_storeUpdates (bs : List Byte) (a : Nat) (e : Event) :
    (storeUpdates bs a).any (·.records e) = false := by
  simp [storeUpdates]

@[simp] theorem any_records_loadUpdates (bs : List Byte) (k : Nat) (e : Event) :
    (loadUpdates bs k).any (·.records e) = false := by
  simp [loadUpdates]

@[simp] theorem any_records_pushUpdates (s : State) (e : Event) :
    (pushUpdates s).any (·.records e) = (decide (¬ s.sp.val < 16) && e == .stkOvf) := by
  unfold pushUpdates
  split <;> simp [*]

@[simp] theorem any_records_popUpdates (s : State) (e : Event) :
    (popUpdates s).any (·.records e) = (decide (s.sp.val = 0) && e == .stkUnf) := by
  unfold popUpdates
  split <;> simp [*]

/-- NONCANON is among an instruction's events exactly when its ignored bits are not canonical. -/
theorem any_records_nonCanon (i : Instr) (s : State) :
    (updates i s).any (·.records .nonCanon) = i.nonCanonical := by
  cases i with
  | ldVxK x =>
    simp only [updates, Instr.nonCanonical]
    cases lowestKey s.key <;> rfl
  | _ => simp [updates, flagUpdates, skipUpdate, Instr.nonCanonical]

theorem evtBit_nonCanon_of_step {s t : State} (h : step s = .next t) :
    t.evtBit .nonCanon = (s.evtBit .nonCanon || (decodeWord s.nextOpcode).nonCanonical) := by
  have hb : s.beginCycle.evtBit .nonCanon = s.evtBit .nonCanon := by
    rw [State.evtBit, State.beginCycle_evt, evtWith_bit]
    simp [State.evtBit]
  rw [eq_applyAll_of_step h, ← any_records_nonCanon, ← hb]
  exact State.evtBit_applyAll _ _ _

/-! ### Ignored bits that are not canonical, as numbers -/

/-- The opcode, as a number, has ignored bits and they are not canonical (R107). -/
def NonCanonicalOpcode (op : Nat) : Prop :=
  (op / 4096 = 0 ∧ op % 16 = 0 ∧ op ≠ 0x00E0) ∨ (op / 4096 = 0 ∧ op % 16 = 0xE ∧ op ≠ 0x00EE) ∨
  (op / 4096 = 5 ∧ op % 16 ≠ 0) ∨ (op / 4096 = 9 ∧ op % 16 ≠ 0) ∨
  (op / 4096 = 0xE ∧ op % 16 = 0xE ∧ op / 16 % 16 ≠ 9) ∨
  (op / 4096 = 0xE ∧ op % 16 = 1 ∧ op / 16 % 16 ≠ 0xA)

/-- The same in terms of the opcode's fields. -/
theorem nonCanonicalOpcode_iff (op : Word) : NonCanonicalOpcode op.toNat ↔
    (fieldPrefix op = 0x0#4 ∧ fieldN op = 0x0#4 ∧ fieldDc op ≠ 0x0E#8) ∨
    (fieldPrefix op = 0x0#4 ∧ fieldN op = 0xE#4 ∧ fieldDc op ≠ 0x0E#8) ∨
    (fieldPrefix op = 0x5#4 ∧ fieldN op ≠ 0x0#4) ∨ (fieldPrefix op = 0x9#4 ∧ fieldN op ≠ 0x0#4) ∨
    (fieldPrefix op = 0xE#4 ∧ fieldN op = 0xE#4 ∧ fieldY op ≠ 0x9#4) ∨
    (fieldPrefix op = 0xE#4 ∧ fieldN op = 0x1#4 ∧ fieldY op ≠ 0xA#4) := by
  simp only [NonCanonicalOpcode, ne_eq, ← BitVec.toNat_inj, fieldPrefix_toNat, fieldN_toNat, fieldY_toNat,
    fieldDc_toNat, BitVec.reduceToNat]
  have := op.isLt
  refine or_congr ?_ (or_congr ?_ (or_congr ?_ (or_congr ?_ (or_congr ?_ ?_)))) <;> omega

theorem not_nonCanonicalOpcode_sys {nnn : Addr} (h : isSysSelector (nnn.extractLsb' 0 4) = true) :
    ¬ NonCanonicalOpcode (encode (.sys nnn)).toNat := by
  obtain ⟨h0, hE⟩ := (isSysSelector_iff _).1 h
  simp [nonCanonicalOpcode_iff, encode, h0, hE]

theorem not_nonCanonicalOpcode_unmapped {op : Word} (h : isUnmapped op = true) : ¬ NonCanonicalOpcode op.toNat := by
  rw [nonCanonicalOpcode_iff]
  rcases (isUnmapped_iff op).1 h with ⟨hp, -⟩ | ⟨hp, hn⟩ | ⟨hp, -⟩
  · simp [hp]
  · obtain ⟨hE, h1⟩ := (isUnmappedE_iff _).1 hn
    simp [hp, hE, h1]
  · simp [hp]

/-- An instruction's ignored bits differ from canonical exactly when its opcode's do. -/
theorem nonCanonical_iff {i : Instr} (h : i.wellFormed = true) :
    i.nonCanonical = true ↔ NonCanonicalOpcode (encode i).toNat := by
  cases i with
  | sys nnn => exact iff_of_false Bool.false_ne_true (not_nonCanonicalOpcode_sys h)
  | unmapped op => exact iff_of_false Bool.false_ne_true (not_nonCanonicalOpcode_unmapped h)
  | _ => simp [Instr.nonCanonical, nonCanonicalOpcode_iff, encode]

/-- Decode answers with ignored bits that are not canonical exactly where the opcode has such bits. -/
theorem nonCanonical_decodeWord_iff (op : Word) :
    (decodeWord op).nonCanonical = true ↔ NonCanonicalOpcode op.toNat := by
  obtain ⟨hwf, henc⟩ := decodeWord_standsFor op
  rw [nonCanonical_iff hwf, henc]

end Sys2Proof.Machine
end

section
/-! The statements of 30_encoding.md settled. -/

namespace Sys2Proof.Machine

/-- Settles O1: the fields of an encoding are the operands it was made of, and the dispatch compares the others. -/
theorem decodeOfEncodeIsTheInstruction : Obligations.DecodeOfEncodeIsTheInstruction :=
  fun _ h => decodeWord_encode h

/-- Settles O2: each entry of the dispatch keeps every field of the opcode that it has not compared. -/
theorem encodeOfDecodeIsTheOpcode : Obligations.EncodeOfDecodeIsTheOpcode := decodeWord_standsFor

/-- Settles O3: two rows of priority 0 differ in a bit that both fix, and a row that accepts an opcode fixes the fields
on which the dispatch compares it. -/
theorem decodeFollowsTheOpcodeTable : Obligations.DecodeFollowsTheOpcodeTable :=
  ⟨fun op => opcodeRows0_pairwise_differ.imp fun hd => OpcodeRow.not_accepts_both hd op, tableMnemonic_eq,
    fun _ _ _ => rfl⟩

/-- Settles O4: the events of a step are its fetch's and its instruction's, and NONCANON is the instruction's alone. -/
theorem stepRecordsNonCanonicalOpcodes : Obligations.StepRecordsNonCanonicalOpcodes := by
  intro s t h
  show _ ↔ _ ∨ NonCanonicalOpcode s.nextOpcode.toNat
  rw [evtBit_nonCanon_of_step h, Bool.or_eq_true, nonCanonical_decodeWord_iff]

/-- Settles O5 by running the decoder on the samples. -/
theorem sampleOpcodesDecode : Obligations.SampleOpcodesDecode :=
  ⟨rfl, rfl, rfl, rfl, rfl, rfl, rfl, rfl⟩

end Sys2Proof.Machine
end

section
/-! SUPPORT. PC after an instruction, and the frame of a cycle's end. -/

namespace Sys2Proof.Machine

/-! ### The ways an instruction leaves PC (40_cycle.md R124) -/

/-- An instruction whose row of writes does not name PC keeps it. -/
theorem pc_of_notMem_writes {i : Instr} {s t : State} (hw : Element.pc ∉ writes i s) (h : exec i s = .next t) :
    t.pc = s.pc := exec_onlyChanges h .pc hw

/-- An instruction whose last update sets PC leaves it so. -/
theorem pc_of_getLast_setPc {i : Instr} {s t : State} {w : Word} (hu : (updates i s).getLast? = some (.setPc w))
    (h : exec i s = .next t) : t.pc = w := by
  obtain ⟨us, hus⟩ := List.getLast?_eq_some_iff.1 hu
  rw [eq_applyAll_of_exec h, hus, State.applyAll_append]
  rfl

/-- An instruction that ends in a skip leaves PC as it found it or two higher (R200). -/
theorem pc_of_getLast_skipUpdate {i : Instr} {s t : State} {c : Bool}
    (hu : (updates i s).getLast? = some (skipUpdate c s)) (h : exec i s = .next t) :
    t.pc = s.pc ∨ t.pc.toNat = (s.pc.toNat + 2) % 65536 := by
  have hpc : t.pc = if c then s.pc + 2 else s.pc := pc_of_getLast_setPc hu h
  cases c with
  | false => exact .inl hpc
  | true => exact .inr ((congrArg BitVec.toNat hpc).trans (BitVec.toNat_add s.pc 2))

theorem zextAddr_toNat (nnn : Addr) : (zextAddr nnn).toNat = nnn.toNat :=
  BitVec.toNat_setWidth_of_le (by decide)

/-- The target of JP V0, nnn does not wrap: it is at most 0x10FE (R147). -/
theorem zextAddr_add_zextByte_toNat (nnn : Addr) (b : Byte) :
    (zextAddr nnn + zextByte b).toNat = nnn.toNat + b.toNat := by
  have hb : (zextByte b).toNat = b.toNat := BitVec.toNat_setWidth_of_le (by decide)
  rw [BitVec.toNat_add, zextAddr_toNat, hb]
  have := nnn.isLt
  have := b.isLt
  omega

/-- RET's pop keeps PC, or loads it with the entry below SP (R142, R143). -/
theorem State.popPc_pc (s : State) :
    s.popPc.pc = s.pc ∨ ∃ k : Fin 16, s.popPc.pc = s.stack[k] ∧ s.sp.val = k.val + 1 := by
  by_cases h : s.sp.val = 0
  · rw [State.popPc_none s h]
    exact .inl rfl
  · rw [State.popPc_some s h]
    exact .inr ⟨⟨s.sp.val - 1, by omega⟩, rfl, by simp only; omega⟩

/-- The key wait keeps PC, or, while no key is pressed, moves it back to the instruction (R260, R262). -/
theorem pc_of_ldVxK {x : Nibble} {s t : State} (h : exec (.ldVxK x) s = .next t) :
    t.pc = s.pc ∨ (s.key = 0 ∧ t.pc = s.pc - 2) := by
  rw [eq_applyAll_of_exec h]
  rcases lowestKey_cases s.key with ⟨hkey, hnone⟩ | ⟨k, -, -, -, hsome⟩
  · rw [updates, hnone]
    exact .inr ⟨hkey, rfl⟩
  · rw [updates, hsome]
    exact .inl rfl

/-! ### The end of a cycle -/

/-- The tick and the move to the next inputs (R126, R127). -/
theorem OnlyChanges.endCycle (s : State) : OnlyChanges {.dt, .st, .inputs, .cycleNo} s s.endCycle := by
  intro d hd
  cases d with
  | dt | st | inputs | cycleNo => exact absurd (by simp) hd
  | _ => rfl

end Sys2Proof.Machine
end

section
/-! The statements of 40_cycle.md settled. -/

namespace Sys2Proof.Machine

/-- Settles O17: a jump, a call and a skip set PC last, RET pops it, Fx0A may move it back, and every other row of
writes leaves PC out. -/
theorem handlersChangePcOnlyAsListed : Obligations.HandlersChangePcOnlyAsListed := by
  intro i s t h
  cases i with
  | jp nnn =>
    have hpc : t.pc = zextAddr nnn := pc_of_getLast_setPc rfl h
    exact (congrArg BitVec.toNat hpc).trans (zextAddr_toNat nnn)
  | call nnn =>
    have hpc : t.pc = zextAddr nnn := pc_of_getLast_setPc List.getLast?_concat h
    exact (congrArg BitVec.toNat hpc).trans (zextAddr_toNat nnn)
  | jpV0 nnn =>
    have hpc : t.pc = zextAddr nnn + zextByte (s.reg 0) := pc_of_getLast_setPc rfl h
    exact (congrArg BitVec.toNat hpc).trans (zextAddr_add_zextByte_toNat nnn (s.reg 0))
  | ret dc =>
    have ht : t = (s.noteCanon (dc != 0x0E#8)).popPc := (Host.Outcome.next.inj h).symm
    rw [ht]
    exact State.popPc_pc (s.noteCanon (dc != 0x0E#8))
  | seImm x kk | sneImm x kk | seReg x y n | sneReg x y n | skp x m | sknp x m =>
    exact pc_of_getLast_skipUpdate rfl h
  | ldVxK x =>
    refine (pc_of_ldVxK h).imp_right fun ⟨hkey, hpc⟩ => ⟨hkey, ?_⟩
    have hback : t.pc + 2 = s.pc := by rw [hpc, BitVec.sub_add_cancel]
    exact (BitVec.toNat_add t.pc 2).symm.trans (congrArg BitVec.toNat hback)
  | _ =>
    refine pc_of_notMem_writes ?_ h
    simp [writes, mem_blockBytes, mem_allPixels, mem_regsTo, byteAt]

/-- Settles O6: the two bytes at PC are the opcode that the cycle's beginning fetches. -/
theorem stepRunsTheDecodedInstruction : Obligations.StepRunsTheDecodedInstruction := by
  rintro s t _ rfl h
  exact step_of_exec h

/-- Settles O10: the count of each timer, the model's two input fields, and the frame. -/
theorem endOfCycle : Obligations.EndOfCycle := fun s =>
  ⟨countDown_toNat s.input.tick s.dt, countDown_toNat s.input.tick s.st, s.endCycle_inputs, s.endCycle_cycleNo,
    OnlyChanges.endCycle s⟩

end Sys2Proof.Machine
end

section
/-! SUPPORT. CALL and RET by the depth of the call stack, balanced CALLs and RETs, and a step at the end of a run. -/

namespace Sys2Proof.Machine

/-! ### Events of an instruction -/

/-- An instruction records the events among its updates. -/
theorem Records.of_exec {i : Instr} {s t : State} {p : Event → Prop} (h : exec i s = .next t)
    (hp : ∀ e, (updates i s).any (·.records e) = true ↔ p e) : Records p s t := by
  rw [eq_applyAll_of_exec h]
  exact Records.of_evt (fun e => State.evtBit_applyAll (updates i s) e s) hp

/-! ### CALL and RET by the depth of the call stack (41_control_flow.md R142–R146) -/

theorem updates_call_room (nnn : Addr) {s : State} {k : Fin 16} (h : s.sp.val = k.val) :
    updates (.call nnn) s = [.setEntry k s.pc, .setSp k.succ, .setPc (zextAddr nnn)] := by
  have hroom : s.sp.val < 16 := h ▸ k.isLt
  have hk : (⟨s.sp.val, hroom⟩ : Fin 16) = k := Fin.ext h
  simp only [updates, pushUpdates, dif_pos hroom, List.cons_append, List.nil_append, ← hk, Fin.succ_mk]

theorem updates_call_full (nnn : Addr) {s : State} (h : s.sp.val = 16) :
    updates (.call nnn) s = [.event true .stkOvf, .setPc (zextAddr nnn)] := by
  have hfull : ¬ s.sp.val < 16 := by omega
  simp only [updates, pushUpdates, dif_neg hfull, List.cons_append, List.nil_append]

theorem updates_ret_entry (dc : Byte) {s : State} {k : Fin 16} (h : s.sp.val = k.val + 1) :
    updates (.ret dc) s = [.event (dc != 0x0E#8) .nonCanon, .setSp k.castSucc, .setPc s.stack[k]] := by
  have hne : s.sp.val ≠ 0 := by omega
  have hk : s.sp.val - 1 = k.val := by omega
  simp only [updates, popUpdates, dif_neg hne, hk]
  rfl

theorem updates_ret_empty (dc : Byte) {s : State} (h : s.sp.val = 0) :
    updates (.ret dc) s = [.event (dc != 0x0E#8) .nonCanon, .event true .stkUnf] := by
  simp only [updates, popUpdates, dif_pos h]

/-! ### Lists of instructions -/

theorem execAll_append {is : List Instr} {s t : State} (js : List Instr) (h : execAll is s = .next t) :
    execAll (is ++ js) s = execAll js t := by
  induction is generalizing s with
  | nil => rw [← Host.Outcome.next.inj h]; rfl
  | cons i is ih =>
    simp only [List.cons_append, execAll, exec_eq_applyAll] at h ⊢
    exact ih h

/-! ### Balanced CALLs and RETs -/

/-- Control is in `u` where it was in `s`: PC, SP, EVT and the entries in use are the same. An entry above SP may
hold another address. -/
structure State.SameControl (s u : State) : Prop where
  pc : u.pc = s.pc
  sp : u.sp = s.sp
  evt : u.evt = s.evt
  entry : ∀ k : Fin 16, k.val < s.sp.val → u.stack[k] = s.stack[k]

/-- A CALL with room, then anything that brings control back to the called address, then a RET. -/
theorem call_ret_sameControl (nnn : Addr) {s t u v : State} (hroom : s.sp.val < 16)
    (hcall : exec (.call nnn) s = .next t) (hbody : t.SameControl u) (hret : exec (.ret 0x0E) u = .next v) :
    s.SameControl v := by
  obtain ⟨k, hk⟩ : ∃ k : Fin 16, s.sp.val = k.val := ⟨⟨s.sp.val, hroom⟩, rfl⟩
  have ht := eq_applyAll_of_exec hcall
  rw [updates_call_room nnn hk] at ht
  subst ht
  obtain ⟨-, hsp, hevt, hentry⟩ := hbody
  have hv := eq_applyAll_of_exec hret
  rw [updates_ret_entry 0x0E (k := k) (congrArg Fin.val hsp)] at hv
  subst hv
  refine ⟨?_, Fin.ext hk.symm, hevt, fun j hj => ?_⟩
  · exact (hentry k (Nat.lt_succ_self _)).trans (Vector.getElem_set_self k.isLt)
  · have hjk : j.val < k.val := hk ▸ hj
    exact (hentry j (Nat.lt_succ_of_lt hjk)).trans (Vector.getElem_set_ne k.isLt j.isLt (Nat.ne_of_gt hjk))

/-- As many RETs as nested CALLs with room for all of them: each RET returns from the innermost pending CALL. -/
theorem nestedCalls_sameControl (targets : List Addr) (s : State) (h : s.sp.val + targets.length ≤ 16) :
    ∃ u, execAll (targets.map .call ++ List.replicate targets.length (.ret 0x0E)) s = .next u ∧
      s.SameControl u := by
  induction targets generalizing s with
  | nil => exact ⟨s, rfl, rfl, rfl, rfl, fun _ _ => rfl⟩
  | cons nnn targets ih =>
    rw [List.length_cons] at h
    have hroom : s.sp.val < 16 := by omega
    obtain ⟨t, hcall⟩ : ∃ t, exec (.call nnn) s = .next t := ⟨_, exec_eq_applyAll _ _⟩
    have hsp : t.sp.val = s.sp.val + 1 := by
      rw [eq_applyAll_of_exec hcall, updates_call_room nnn (k := ⟨s.sp.val, hroom⟩) rfl]
      rfl
    obtain ⟨u, hu, hbody⟩ := ih t (by omega)
    obtain ⟨v, hret⟩ : ∃ v, exec (.ret 0x0E) u = .next v := ⟨_, exec_eq_applyAll _ _⟩
    refine ⟨v, ?_, call_ret_sameControl nnn hroom hcall hbody hret⟩
    rw [List.length_cons, List.replicate_succ', ← List.append_assoc, List.map_cons, List.cons_append]
    simp only [List.cons_append, execAll, hcall, execAll_append _ hu, hret]

/-! ### A whole step as a frame -/

/-- An element that is the same after all need not be among those that change. -/
theorem OnlyChanges.of_insert {e : Element} {w : Set Element} {s t : State} (h : OnlyChanges (insert e w) s t)
    (he : e.same s t) : OnlyChanges w s t := by
  intro d hd
  by_cases hde : d = e
  · exact hde ▸ he
  · exact h d fun hmem => (Set.mem_insert_iff.1 hmem).elim hde hd

/-- A step changes what fetch, its instruction and the end of the cycle write. -/
theorem step_onlyChanges {s t : State} (h : step s = .next t) :
    OnlyChanges ({.op, .pc, .key, .evt} ∪ writes (decodeWord s.nextOpcode) s.beginCycle ∪
      {.dt, .st, .inputs, .cycleNo}) s t := by
  obtain ⟨u, hu, rfl⟩ := step_cases h
  refine (((OnlyChanges.beginCycle s).mono ?_).trans ((exec_onlyChanges hu).mono ?_)).trans
    ((OnlyChanges.endCycle u).mono Set.subset_union_right)
  · exact Set.subset_union_left.trans Set.subset_union_left
  · exact Set.subset_union_right.trans Set.subset_union_left

/-! ### The end of a run (70_reset_and_hazards.md R311) -/

/-- The bound on PC in the definition of the end holds of every jump target. -/
theorem State.ended_iff (s : State) :
    s.ended = true ↔ ∃ nnn, decodeWord s.nextOpcode = .jp nnn ∧ zextAddr nnn = s.pc := by
  unfold State.ended
  split
  · rename_i nnn hjp
    rw [Bool.and_eq_true, beq_iff_eq, decide_eq_true_iff, hjp]
    constructor
    · rintro ⟨hpc, -⟩
      exact ⟨nnn, rfl, hpc⟩
    · rintro ⟨_, ⟨rfl⟩, hpc⟩
      exact ⟨hpc, by rw [← hpc, zextAddr_toNat]; exact nnn.isLt⟩
  · rename_i hne
    exact iff_of_false Bool.false_ne_true fun ⟨nnn, hjp, _⟩ => hne nnn hjp

/-- A step at the end of a run: the jump undoes the advance (R141). -/
theorem step_of_ended {s : State} (h : s.ended = true) : step s = .next (s.beginCycle.setPc s.pc).endCycle := by
  obtain ⟨nnn, hjp, hpc⟩ := s.ended_iff.1 h
  rw [step_eq_applyAll, hjp, ← hpc, updates, State.applyAll_cons, State.applyAll_nil, Update.apply]

/-- The end of a run depends on PC and memory alone. -/
theorem State.ended_congr {s t : State} (hpc : t.pc = s.pc) (hpeek : ∀ a, t.peek a = s.peek a) :
    t.ended = s.ended := by
  simp only [State.ended, State.nextOpcode, hpc, hpeek]

end Sys2Proof.Machine
end

section
/-! The statements of 41_control_flow.md settled. -/

namespace Sys2Proof.Machine

/-- Settles O19: the updates of RET with an entry and without one. -/
theorem retPopsIntoPc : Obligations.RetPopsIntoPc := by
  intro dc s
  have h := exec_eq_applyAll (.ret dc) s
  refine ⟨_, h, fun k hk => ?_, fun h0 => ?_, Records.of_exec h fun e => ?_, exec_onlyChanges h⟩
  · rw [updates_ret_entry dc hk]
    exact ⟨rfl, rfl⟩
  · rw [updates_ret_empty dc h0]
    exact ⟨rfl, rfl⟩
  · simp only [updates, List.any_cons, Update.records_event, any_records_popUpdates, Bool.or_eq_true,
      Bool.and_eq_true, decide_eq_true_iff, beq_iff_eq, bne_iff_ne]
    exact or_comm.trans (or_congr and_comm and_comm)

/-- Settles O20: the updates of CALL with room and on a full stack. -/
theorem callPushesAndJumps : Obligations.CallPushesAndJumps := by
  intro nnn s
  have h := exec_eq_applyAll (.call nnn) s
  refine ⟨_, h, handlersChangePcOnlyAsListed (.call nnn) s _ h, fun k hk => ?_, fun hfull => ?_,
    Records.of_exec h fun e => ?_⟩
  · rw [updates_call_room nnn hk]
    exact ⟨rfl, Vector.getElem_set_self k.isLt, OnlyChanges.applyAll (by simp [Update.target]) s⟩
  · rw [updates_call_full nnn hfull]
    exact OnlyChanges.applyAll (by simp [Update.target]) s
  · have hfull : ¬ s.sp.val < 16 ↔ s.sp.val = 16 := by omega
    simp [updates, hfull, and_comm]

/-- Settles O22: by induction on the targets, control is back where it was. -/
theorem nestedCallsReturn : Obligations.NestedCallsReturn := by
  intro targets s _ hroom
  obtain ⟨u, hu, hpc, hsp, hevt, -⟩ := nestedCalls_sameControl targets s hroom
  exact ⟨u, hu, hpc, hsp, hevt⟩

/-- Settles O52: the jump undoes the advance, and a step leaves the bytes it was fetched from. -/
theorem endedRunStaysEnded : Obligations.EndedRunStaysEnded := by
  intro s hs
  have hstep := step_of_ended hs
  have hpc : (s.beginCycle.setPc s.pc).endCycle.pc = s.pc := by simp
  have hended : (s.beginCycle.setPc s.pc).endCycle.ended = s.ended := State.ended_congr hpc (by simp)
  obtain ⟨nnn, hjp, -⟩ := s.ended_iff.1 hs
  have hframe := step_onlyChanges hstep
  rw [hjp] at hframe
  refine ⟨_, hstep, hpc, hended.trans hs, OnlyChanges.of_insert (e := .pc) (hframe.mono ?_) hpc⟩
  simp [writes, Set.insert_subset_iff]

/-- Settles O18: the one update of a jump sets PC. -/
theorem jumpsSetPcAlone : Obligations.JumpsSetPcAlone := by
  intro nnn s
  have hjp := exec_eq_applyAll (.jp nnn) s
  have hjpV0 := exec_eq_applyAll (.jpV0 nnn) s
  exact ⟨⟨_, hjp, handlersChangePcOnlyAsListed (.jp nnn) s _ hjp, exec_onlyChanges hjp⟩,
    ⟨_, hjpV0, handlersChangePcOnlyAsListed (.jpV0 nnn) s _ hjpV0, exec_onlyChanges hjpV0⟩⟩

/-- Settles O21: RET pops the entry that CALL pushed. -/
theorem retUndoesCall : Obligations.RetUndoesCall := by
  intro nnn dc s hroom
  obtain ⟨t, hcall, -, hpush, -⟩ := callPushesAndJumps nnn s
  obtain ⟨hsp, hentry, -⟩ := hpush ⟨s.sp.val, hroom⟩ rfl
  obtain ⟨u, hret, hpop, -⟩ := retPopsIntoPc dc t
  obtain ⟨husp, hupc⟩ := hpop ⟨s.sp.val, hroom⟩ hsp
  exact ⟨t, u, hcall, hret, hupc.trans hentry, Fin.ext husp⟩

/-- Settles O23: UNMAPPED is the one update of SYS and of an unmapped opcode. -/
theorem noOpHandlerChangesNothing : Obligations.NoOpHandlerChangesNothing := by
  intro nnn op s
  have hsys := exec_eq_applyAll (.sys nnn) s
  have hunmapped := exec_eq_applyAll (.unmapped op) s
  exact ⟨⟨_, hsys, Records.of_exec hsys (by simp [updates]), exec_onlyChanges hsys⟩,
    ⟨_, hunmapped, Records.of_exec hunmapped (by simp [updates]), exec_onlyChanges hunmapped⟩⟩

end Sys2Proof.Machine
end

section
/-! SUPPORT. An instruction whose one update is a register, one that ends in the flag, and the values and flags of the
register arithmetic as numbers. -/

namespace Sys2Proof.Machine

/-! ### The two shapes of a register instruction (42_register_alu.md R160) -/

/-- An instruction whose one update writes a register. -/
theorem exec_of_updates_setReg {i : Instr} {s : State} {x : Nibble} {b : Byte} (hu : updates i s = [.setReg x b]) :
    ∃ t, exec i s = .next t ∧ t.reg x = b ∧ OnlyChanges {.reg x} s t := by
  refine ⟨s.setReg x b, ?_, State.reg_setReg_self s x b, OnlyChanges.setReg s x b⟩
  rw [exec_eq_applyAll, hu]
  rfl

theorem flagUpdates_target {arg : Bool} {x : Nibble} {r : Byte} {f : Bool} :
    ∀ u ∈ flagUpdates arg x r f, u.target ⊆ {.reg x, .reg 0xF, .evt} := by
  simp [flagUpdates, Update.target, vf]

/-- An instruction that records VF_ARG, writes its result and writes the flag last: VF holds the flag whatever register
the result went to (R160, D10). -/
theorem exec_of_updates_flag {i : Instr} {s : State} {arg : Bool} {x : Nibble} {r : Byte} {f : Bool} {q : Prop}
    (hu : updates i s = flagUpdates arg x r f) (hq : arg = true ↔ q) :
    ∃ t, exec i s = .next t ∧ (x ≠ 0xF → t.reg x = r) ∧ t.reg 0xF = flagByte f ∧
      Records (fun e => e = .vfArg ∧ q) s t ∧ OnlyChanges {.reg x, .reg 0xF, .evt} s t := by
  have h := exec_eq_applyAll i s
  rw [hu] at h
  refine ⟨_, h, fun hx => ?_, State.reg_setReg_self _ vf _, Records.of_evtWith rfl hq,
    OnlyChanges.applyAll flagUpdates_target s⟩
  exact (State.reg_setReg_ne _ hx _).trans (State.reg_setReg_self _ x r)

theorem vfArg2_iff (x y : Nibble) : (x == vf || y == vf) = true ↔ x = 0xF ∨ y = 0xF := by
  rw [Bool.or_eq_true, beq_iff_eq, beq_iff_eq]
  rfl

/-! ### Results as numbers (R161) -/

theorem wrapAdd_toNat (p q : Byte) : (wrapAdd p q).toNat = (p.toNat + q.toNat) % 256 :=
  (BitVec.toNat_ofNat _ 8).trans (Nat.mod_mod _ 256)

theorem wrapSub_toNat (p q : Byte) : ((wrapSub p q).toNat : Int) = (p.toNat - q.toNat : Int) % 256 := by
  have hq := q.isLt
  have h : (wrapSub p q).toNat = (p.toNat + 256 - q.toNat) % 256 :=
    (BitVec.toNat_ofNat _ 8).trans (Nat.mod_mod _ 256)
  omega

/-! ### Flags as numbers -/

theorem flagByte_toNat (f : Bool) : (flagByte f).toNat = f.toNat := by
  cases f <;> rfl

theorem flagByte_decide_toNat (p : Prop) [Decidable p] : (flagByte (decide p)).toNat = if p then 1 else 0 := by
  by_cases h : p
  · rw [decide_eq_true h, if_pos h]
    rfl
  · rw [decide_eq_false h, if_neg h]
    rfl

/-- The bit shifted out to the right is the remainder of halving. -/
theorem flagByte_bitOutRight_toNat (a : Byte) : (flagByte (bitOutRight a)).toNat = a.toNat % 2 := by
  rw [flagByte_toNat, bitOutRight, BitVec.getLsbD, Nat.toNat_testBit, pow_zero, Nat.div_one]

/-- The bit shifted out to the left is the half of the byte's range that it lies in. -/
theorem flagByte_bitOutLeft_toNat (a : Byte) : (flagByte (bitOutLeft a)).toNat = a.toNat / 128 := by
  have ha := a.isLt
  rw [flagByte_toNat, bitOutLeft, BitVec.getLsbD, Nat.toNat_testBit]
  omega

theorem shr_one_toNat (a : Byte) : (a >>> 1).toNat = a.toNat / 2 := by
  rw [BitVec.toNat_ushiftRight, Nat.shiftRight_one]

theorem shl_one_toNat (a : Byte) : (a <<< 1).toNat = 2 * a.toNat % 256 := by
  rw [BitVec.toNat_shiftLeft, Nat.shiftLeft_eq, pow_one, Nat.mul_comm]

end Sys2Proof.Machine
end

section
/-! The statements of 42_register_alu.md settled. -/

namespace Sys2Proof.Machine

/-- Settles O27: the flag is the last update, and the sum's carry. -/
theorem addSetsCarry : Obligations.AddSetsCarry := by
  intro x y s
  obtain ⟨t, ht, hres, hflag, hrec, hframe⟩ := exec_of_updates_flag (i := .addReg x y) (s := s) rfl (vfArg2_iff x y)
  refine ⟨t, ht, fun hx => ?_, ?_, hrec, hframe⟩
  · rw [hres hx, wrapAdd_toNat]
  · rw [hflag, carryOut, flagByte_decide_toNat]

/-- Settles O28: the flag is the last update, and the strict comparison of Vx with Vy. -/
theorem subSetsStrictFlag : Obligations.SubSetsStrictFlag := by
  intro x y s
  obtain ⟨t, ht, hres, hflag, hrec, hframe⟩ := exec_of_updates_flag (i := .subReg x y) (s := s) rfl (vfArg2_iff x y)
  refine ⟨t, ht, fun hx => ?_, ?_, hrec, hframe⟩
  · rw [hres hx, wrapSub_toNat]
  · rw [hflag, strictlyGreater, flagByte_decide_toNat]

/-- Settles O29: the flag is the last update, and the strict comparison of Vy with Vx. -/
theorem subnSetsStrictFlag : Obligations.SubnSetsStrictFlag := by
  intro x y s
  obtain ⟨t, ht, hres, hflag, hrec, hframe⟩ := exec_of_updates_flag (i := .subn x y) (s := s) rfl (vfArg2_iff x y)
  refine ⟨t, ht, fun hx => ?_, ?_, hrec, hframe⟩
  · rw [hres hx, wrapSub_toNat]
  · rw [hflag, strictlyGreater, flagByte_decide_toNat]

/-- Settles O24: each load has one update. -/
theorem loadsOfARegister : Obligations.LoadsOfARegister := fun _ _ _ _ =>
  ⟨exec_of_updates_setReg rfl, exec_of_updates_setReg rfl⟩

/-- Settles O25: the one update stores the wrapped sum. -/
theorem addImmediateWrapsWithoutFlag : Obligations.AddImmediateWrapsWithoutFlag := by
  intro x kk s
  obtain ⟨t, ht, hres, hframe⟩ := exec_of_updates_setReg (i := .addImm x kk) (s := s) rfl
  exact ⟨t, ht, by rw [hres, wrapAdd_toNat], hframe⟩

/-- Settles O26: the one update stores the bitwise result. -/
theorem logicIsBitwiseWithoutFlag : Obligations.LogicIsBitwiseWithoutFlag := by
  intro x y s
  obtain ⟨t, ht, hor, htframe⟩ := exec_of_updates_setReg (i := .orReg x y) (s := s) rfl
  obtain ⟨u, hu, hand, huframe⟩ := exec_of_updates_setReg (i := .andReg x y) (s := s) rfl
  obtain ⟨v, hv, hxor, hvframe⟩ := exec_of_updates_setReg (i := .xorReg x y) (s := s) rfl
  exact ⟨⟨t, ht, htframe, fun k => by rw [hor, BitVec.getLsbD_or]⟩,
    ⟨u, hu, huframe, fun k => by rw [hand, BitVec.getLsbD_and]⟩,
    ⟨v, hv, hvframe, fun k => by rw [hxor, BitVec.getLsbD_xor]⟩⟩

/-- Settles O30: the flag is the last update, and bit 0; the updates do not mention y. -/
theorem shrMovesBitZeroToVf : Obligations.ShrMovesBitZeroToVf := by
  intro x y s
  obtain ⟨t, ht, hres, hflag, hrec, hframe⟩ := exec_of_updates_flag (i := .shr x y) (s := s) rfl beq_iff_eq
  refine ⟨t, ht, fun hx => ?_, ?_, hrec, hframe⟩
  · rw [hres hx, shr_one_toNat]
  · rw [hflag, flagByte_bitOutRight_toNat]

/-- Settles O31: the flag is the last update, and bit 7; the updates do not mention y. -/
theorem shlMovesBitSevenToVf : Obligations.ShlMovesBitSevenToVf := by
  intro x y s
  obtain ⟨t, ht, hres, hflag, hrec, hframe⟩ := exec_of_updates_flag (i := .shl x y) (s := s) rfl beq_iff_eq
  refine ⟨t, ht, fun hx => ?_, ?_, hrec, hframe⟩
  · rw [hres hx, shl_one_toNat]
  · rw [hflag, flagByte_bitOutLeft_toNat]

/-- Settles O32: the one update stores the masked input. -/
theorem rndMasksTheInput : Obligations.RndMasksTheInput := by
  intro x kk s
  obtain ⟨t, ht, hres, hframe⟩ := exec_of_updates_setReg (i := .rnd x kk) (s := s) rfl
  exact ⟨t, ht, hframe, fun k => by rw [hres, BitVec.getLsbD_and]⟩

end Sys2Proof.Machine
end

section
/-! SUPPORT. PC after a skip as a number, and the two tests of a key skip: the events and the key. -/

namespace Sys2Proof.Machine

/-! ### PC after a skip (43_skip_compare.md R200) -/

/-- An instruction that ends in a skip on the condition `p` moves PC 2 more, modulo 2^16, exactly when `p` holds. -/
theorem pc_toNat_of_skip_if {i : Instr} {s t : State} {c : Bool} {p : Prop} [Decidable p]
    (hu : (updates i s).getLast? = some (skipUpdate c s)) (hc : c = true ↔ p) (h : exec i s = .next t) :
    t.pc.toNat = (s.pc.toNat + if p then 2 else 0) % 65536 := by
  have hpc : t.pc = if c then s.pc + 2 else s.pc := pc_of_getLast_setPc hu h
  by_cases hp : p
  · rw [hpc, if_pos (hc.2 hp), if_pos hp]
    exact BitVec.toNat_add s.pc 2
  · rw [hpc, if_neg (mt hc.1 hp), if_neg hp, Nat.add_zero, Nat.mod_eq_of_lt s.pc.isLt]

/-- The skip on the opposite condition. -/
theorem pc_toNat_of_skip_unless {i : Instr} {s t : State} {c : Bool} {p : Prop} [Decidable p]
    (hu : (updates i s).getLast? = some (skipUpdate c s)) (hc : c = true ↔ ¬ p) (h : exec i s = .next t) :
    t.pc.toNat = (s.pc.toNat + if p then 0 else 2) % 65536 := by
  rw [pc_toNat_of_skip_if hu hc h, ite_not]

theorem byte_beq_iff (a b : Byte) : (a == b) = true ↔ a.toNat = b.toNat :=
  beq_iff_eq.trans BitVec.toNat_inj.symm

theorem byte_bne_iff (a b : Byte) : (a != b) = true ↔ ¬ a.toNat = b.toNat :=
  bne_iff_ne.trans (not_congr BitVec.toNat_inj.symm)

/-! ### The key that a register names (R207) -/

theorem indexWraps_iff (v : Byte) : indexWraps v = true ↔ 15 < v.toNat := decide_eq_true_iff

theorem State.pressed_lowIndex (v : Byte) (s : State) :
    s.pressed (lowIndex v) = s.key.getLsbD (v.toNat % 16) := by
  rw [State.pressed, lowIndex_toNat]

theorem State.not_pressed_lowIndex_iff (v : Byte) (s : State) :
    (!s.pressed (lowIndex v)) = true ↔ ¬ s.key.getLsbD (v.toNat % 16) = true := by
  rw [State.pressed_lowIndex, Bool.not_eq_true', Bool.not_eq_true]

/-- SKP and SKNP record NONCANON under the condition on their ignored nibble, and IDX_WRAP for a value above 0xF. -/
theorem Records.of_updates_keySkip {i : Instr} {s t : State} {c k : Bool} {v : Byte} {q : Prop}
    (hu : updates i s = [.event c .nonCanon, .event (indexWraps v) .idxWrap, skipUpdate k s])
    (hc : c = true ↔ q) (h : exec i s = .next t) :
    Records (fun e => (e = .idxWrap ∧ 15 < v.toNat) ∨ (e = .nonCanon ∧ q)) s t := by
  refine Records.of_exec h fun e => ?_
  simp only [hu, skipUpdate, List.any_cons, List.any_nil, Update.records_event, Update.records_setPc, Bool.or_false,
    Bool.or_eq_true, Bool.and_eq_true, beq_iff_eq, indexWraps_iff, hc]
  exact or_comm.trans (or_congr and_comm and_comm)

end Sys2Proof.Machine
end

section
/-! The statements of 43_skip_compare.md settled. -/

namespace Sys2Proof.Machine

/-- Settles O35: both instructions record the same two events and skip on the key of the low nibble, or on its
opposite. -/
theorem skipsOnAKey : Obligations.SkipsOnAKey := by
  intro x m s
  have hskp := exec_eq_applyAll (.skp x m) s
  have hsknp := exec_eq_applyAll (.sknp x m) s
  refine ⟨⟨_, hskp, exec_onlyChanges hskp, Records.of_updates_keySkip rfl bne_iff_ne hskp, ?_⟩,
    ⟨_, hsknp, exec_onlyChanges hsknp, Records.of_updates_keySkip rfl bne_iff_ne hsknp, ?_⟩⟩
  · exact pc_toNat_of_skip_if rfl (by rw [State.pressed_lowIndex]) hskp
  · exact pc_toNat_of_skip_unless rfl (State.not_pressed_lowIndex_iff (s.reg x) s) hsknp

/-- Settles O33: the one update of each is a skip, on the comparison or on its opposite. -/
theorem skipsOnAnImmediate : Obligations.SkipsOnAnImmediate := by
  intro x kk s
  have hse := exec_eq_applyAll (.seImm x kk) s
  have hsne := exec_eq_applyAll (.sneImm x kk) s
  exact ⟨⟨_, hse, exec_onlyChanges hse, pc_toNat_of_skip_if rfl (byte_beq_iff (s.reg x) kk) hse⟩,
    ⟨_, hsne, exec_onlyChanges hsne, pc_toNat_of_skip_unless rfl (byte_bne_iff (s.reg x) kk) hsne⟩⟩

/-- Settles O34: NONCANON for the ignored nibble, then the skip on the comparison or on its opposite. -/
theorem skipsOnTwoRegisters : Obligations.SkipsOnTwoRegisters := by
  intro x y n s
  have hse := exec_eq_applyAll (.seReg x y n) s
  have hsne := exec_eq_applyAll (.sneReg x y n) s
  refine ⟨⟨_, hse, exec_onlyChanges hse, Records.of_evtWith rfl bne_iff_ne, ?_⟩,
    ⟨_, hsne, exec_onlyChanges hsne, Records.of_evtWith rfl bne_iff_ne, ?_⟩⟩
  · exact pc_toNat_of_skip_if rfl (byte_beq_iff (s.reg x) (s.reg y)) hse
  · exact pc_toNat_of_skip_unless rfl (byte_bne_iff (s.reg x) (s.reg y)) hsne

end Sys2Proof.Machine
end

section
/-! SUPPORT. DRW as what it does to the pixels and to VF, and what a second draw of the same sprite finds. -/

namespace Sys2Proof.Machine

/-! ### One draw (44_sprite_display.md R221, R225) -/

/-- The sprite that DRW draws from `s` has a set bit on a visible pixel that is on (R225). -/
def State.Collides (x y n : Nibble) (s : State) : Prop :=
  ∃ px py, onScreen px py ∧ pixelAt s.fb px py = true ∧ s.spriteAt x y n px py = true

theorem State.drawing_hit (x y n : Nibble) (s : State) : (s.drawing x y n).hit = true ↔ s.Collides x y n := by
  rw [State.drawing, drawRows_hit, or_iff_right Bool.false_ne_true]
  exact exists₂_congr fun _ _ => and_congr_right fun _ => and_comm

/-- A sprite of no rows is drawn by doing nothing (D13). -/
theorem State.drawing_no_rows (x y : Nibble) (s : State) : s.drawing x y 0 = ⟨s.fb, false, false⟩ := rfl

theorem fb_of_drw {x y n : Nibble} {s t : State} (h : exec (.drw x y n) s = .next t) :
    t.fb = (s.drawing x y n).fb := by
  rw [eq_applyAll_of_exec h]
  rfl

theorem vf_of_drw {x y n : Nibble} {s t : State} (h : exec (.drw x y n) s = .next t) :
    t.reg 0xF = flagByte (s.drawing x y n).hit := by
  rw [eq_applyAll_of_exec h]
  exact State.reg_setReg_self _ vf _

theorem pixelAt_of_drw {x y n : Nibble} {s t : State} (h : exec (.drw x y n) s = .next t) {px py : Nat}
    (hp : onScreen px py) : pixelAt t.fb px py = (pixelAt s.fb px py ^^ s.spriteAt x y n px py) := by
  rw [fb_of_drw h]
  exact drawRows_pixel _ _ _ _ _ _ hp

/-- VF after DRW, under any condition that is the same as a collision. -/
theorem vf_of_drw_iff {x y n : Nibble} {s t : State} {p : Prop} (h : exec (.drw x y n) s = .next t)
    (hp : s.Collides x y n ↔ p) : (p → t.reg 0xF = 1) ∧ (¬ p → t.reg 0xF = 0) := by
  rw [vf_of_drw h, ← hp, ← State.drawing_hit]
  cases (s.drawing x y n).hit <;> simp [flagByte]

/-! ### The same draw again (44_sprite_display.md R229) -/

/-- A draw whose coordinates are not VF leaves what the same draw reads of the sprite and its place. -/
theorem spriteAt_of_drw {x y n : Nibble} {s t : State} (hx : x ≠ 0xF) (hy : y ≠ 0xF)
    (h : exec (.drw x y n) s = .next t) : t.spriteAt x y n = s.spriteAt x y n := by
  have hreg {r : Nibble} (hr : r ≠ 0xF) : t.reg r = s.reg r :=
    exec_onlyChanges h (.reg r) (by simpa [writes, mem_allPixels, vf] using hr)
  have hi : t.i = s.i := exec_onlyChanges h .i (by simp [writes, mem_allPixels])
  have hpeek (a : Nat) : t.peek a = s.peek a := by
    rw [← State.peek_mod t, ← State.peek_mod s]
    exact exec_onlyChanges h (.byte (Fin.ofNat 4096 a)) (by simp [writes, mem_allPixels])
  funext px py
  simp only [State.spriteAt, State.sprite, hreg hx, hreg hy, hi, hpeek]

/-- The second draw flips back what the first one flipped. -/
theorem fb_of_drw_drw {x y n : Nibble} {s t u : State} (hx : x ≠ 0xF) (hy : y ≠ 0xF)
    (ht : exec (.drw x y n) s = .next t) (hu : exec (.drw x y n) t = .next u) : u.fb = s.fb := by
  refine FrameBuffer.ext_pixels u.fb s.fb fun px py hpx hpy => ?_
  rw [pixelAt_of_drw hu ⟨hpx, hpy⟩, pixelAt_of_drw ht ⟨hpx, hpy⟩, spriteAt_of_drw hx hy ht, Bool.xor_assoc,
    Bool.xor_self, Bool.xor_false]

/-- After a draw the same draw collides where the sprite has a set bit on a pixel that was off before the first. -/
theorem collides_after_drw {x y n : Nibble} {s t : State} (hx : x ≠ 0xF) (hy : y ≠ 0xF)
    (h : exec (.drw x y n) s = .next t) : t.Collides x y n ↔
      ∃ px py, onScreen px py ∧ pixelAt s.fb px py = false ∧ s.spriteAt x y n px py = true := by
  refine exists₂_congr fun px py => and_congr_right fun hp => ?_
  rw [spriteAt_of_drw hx hy h, pixelAt_of_drw h hp]
  refine and_congr_left fun hbit => ?_
  rw [hbit, Bool.xor_true, Bool.not_eq_true']

/-- A draw that leaves VF at 0 met no visible pixel that was on. -/
theorem not_collides_of_vf {x y n : Nibble} {s t : State} (h : exec (.drw x y n) s = .next t)
    (hvf : t.reg 0xF = 0) : ¬ s.Collides x y n := by
  intro hc
  have hone : t.reg 0xF = 1 := (vf_of_drw_iff h Iff.rfl).1 hc
  exact absurd (hvf.symm.trans hone) (by decide)

/-- After a draw that met no pixel that was on, the same draw collides on every visible set bit. -/
theorem collides_after_fresh_drw {x y n : Nibble} {s t : State} (hx : x ≠ 0xF) (hy : y ≠ 0xF)
    (h : exec (.drw x y n) s = .next t) (hfresh : ¬ s.Collides x y n) :
    t.Collides x y n ↔ ∃ px py, onScreen px py ∧ s.spriteAt x y n px py = true := by
  rw [collides_after_drw hx hy h]
  refine exists₂_congr fun px py => and_congr_right fun hp => and_iff_right_of_imp fun hbit => ?_
  exact Bool.eq_false_of_not_eq_true fun hon => hfresh ⟨px, py, hp, hon, hbit⟩

end Sys2Proof.Machine
end

section
/-! The statements of 44_sprite_display.md settled. -/

namespace Sys2Proof.Machine

/-- Settles O37: each visible pixel is flipped where the sprite has a set bit, and the updates of DRW write its row. -/
theorem drwXorsTheSprite : Obligations.DrwXorsTheSprite := by
  intro x y n s
  have h := exec_eq_applyAll (.drw x y n) s
  exact ⟨_, h, fun px py hpx hpy => pixelAt_of_drw h ⟨hpx, hpy⟩, exec_onlyChanges h⟩

/-- Settles O38: the flag is the last update, and whether a bit collided. -/
theorem drwFlagsCollision : Obligations.DrwFlagsCollision := by
  intro x y n s
  have h := exec_eq_applyAll (.drw x y n) s
  exact ⟨_, h, vf_of_drw_iff h Iff.rfl⟩

/-- Settles O41: the second draw sees the same sprite, and a pixel under a set bit is on before it exactly when it was
off before the first. -/
theorem drawingTwiceRestores : Obligations.DrawingTwiceRestores := by
  intro x y n s hx hy
  obtain ⟨t, ht⟩ : ∃ t, exec (.drw x y n) s = .next t := ⟨_, exec_eq_applyAll _ _⟩
  have hu := exec_eq_applyAll (.drw x y n) t
  exact ⟨t, _, ht, hu, fb_of_drw_drw hx hy ht hu, vf_of_drw_iff hu (collides_after_drw hx hy ht)⟩

/-- Refutes O42: with the four pixels of the top row of glyph 0 already on, the first draw turns them off and the second
meets none that is on. -/
theorem not_secondDrawAlwaysCollides : ¬ Obligations.SecondDrawAlwaysCollides := by
  intro h
  have hbit : ({ State.reset with i := 0x050, fb := blankFb.set 0 0xF } : State).spriteAt 0 1 1 0 0 = true := by decide
  have hcollides := (h 0 1 1 _ _ _ (by decide) (by decide) rfl rfl).2 ⟨0, 0, ⟨by decide, by decide⟩, hbit⟩
  exact absurd hcollides (by decide)

/-- Settles O59: a first draw without collision met only pixels that were off, so each visible set bit collides in the
second. -/
theorem secondDrawCollidesAfterAFreshDraw : Obligations.SecondDrawCollidesAfterAFreshDraw := by
  intro x y n s t hx hy ht hvf
  have hu := exec_eq_applyAll (.drw x y n) t
  exact ⟨_, hu, fb_of_drw_drw hx hy ht hu,
    vf_of_drw_iff hu (collides_after_fresh_drw hx hy ht (not_collides_of_vf ht hvf))⟩

/-- Settles O36: the two updates of CLS. -/
theorem clsTurnsEveryPixelOff : Obligations.ClsTurnsEveryPixelOff := by
  intro dc s
  have h := exec_eq_applyAll (.cls dc) s
  exact ⟨_, h, pixelAt_blankFb, Records.of_evtWith rfl bne_iff_ne, exec_onlyChanges h⟩

/-- Settles O40: with no rows there is nothing to draw and nothing to collide with. -/
theorem drwOfNoRows : Obligations.DrwOfNoRows := by
  intro x y s
  have h := exec_eq_applyAll (.drw x y 0) s
  refine ⟨_, h, ?_, ?_⟩
  · rw [fb_of_drw h, State.drawing_no_rows]
  · rw [vf_of_drw h, State.drawing_no_rows]
    rfl

end Sys2Proof.Machine
end

section
/-! SUPPORT. A block stored at I and a block loaded from I as specifications, the digits of a byte, and the key wait
with and without a pressed key. -/

namespace Sys2Proof.Machine

/-! ### Bytes outside a frame -/

/-- The byte that an effective address reaches is the same when it is not among what changes (R63). -/
theorem OnlyChanges.peek {w : Set Element} {s t : State} (h : OnlyChanges w s t) {a : Nat} (ha : byteAt a ∉ w) :
    t.peek a = s.peek a := by
  rw [← State.peek_mod t, ← State.peek_mod s]
  exact h (byteAt a) ha

/-! ### A block at I (45_memory_timer_key.md R245–R250) -/

/-- An instruction that stores the bytes of a block at I, I + 1, …. -/
theorem exec_of_updates_store {i : Instr} {s : State} {bs : List Byte} {n : Nat} (hl : bs.length = n) (hn : n ≤ 4096)
    (hu : updates i s = storeUpdates bs s.i.toNat ++ [.event (blockWraps n s.i.toNat) .addrWrap]) :
    ∃ t, exec i s = .next t ∧ (∀ k (hk : k < bs.length), t.peek (s.i.toNat + k) = bs[k]) ∧
      Records (fun e => e = .addrWrap ∧ ∃ k, k < n ∧ 4096 ≤ s.i.toNat + k) s t ∧
      OnlyChanges (blockBytes s.i.toNat n ∪ {.evt}) s t := by
  subst hl
  have h : exec i s = .next ((s.pokeBlock bs s.i.toNat).eventIf (blockWraps bs.length s.i.toNat) .addrWrap) := by
    rw [exec_eq_applyAll, hu, State.applyAll_append, applyAll_storeUpdates]
    rfl
  refine ⟨_, h, fun k hk => ?_, Records.of_exec h fun e => ?_, ?_⟩
  · rw [State.eventIf_peek, State.peek_pokeBlock_inside s bs _ k hn hk]
  · simp [hu, ← blockWraps_iff, and_comm]
  · exact ((OnlyChanges.pokeBlock s bs _).mono Set.subset_union_left).trans
      ((OnlyChanges.eventIf _ _ .addrWrap).mono Set.subset_union_right)

/-- The offsets of the registers V0 to Vx from I. -/
theorem exists_nibble_le_iff {x : Nibble} {p : Nat → Prop} :
    (∃ k : Nibble, k ≤ x ∧ p k.toNat) ↔ ∃ k, k < x.toNat + 1 ∧ p k := by
  constructor
  · rintro ⟨k, hk, hp⟩
    exact ⟨k.toNat, Nat.lt_succ_of_le hk, hp⟩
  · rintro ⟨k, hk, hp⟩
    have hnat : (BitVec.ofNat 4 k).toNat = k := ofNat_toNat_nibble k (by have := nibble_lt x; omega)
    exact ⟨BitVec.ofNat 4 k, BitVec.le_def.2 (by omega), by rwa [hnat]⟩

/-- LD Vx, [I] leaves in each of V0 to Vx the byte at its offset from I (R250). -/
theorem reg_of_loadRegs {x k : Nibble} {s t : State} (h : exec (.loadRegs x) s = .next t) (hk : k ≤ x) :
    t.reg k = s.peek (s.i.toNat + k.toNat) := by
  have hx := nibble_lt x
  have hkx : k.toNat < x.toNat + 1 := Nat.lt_succ_of_le hk
  rw [eq_applyAll_of_exec h, updates, State.applyAll_cons, applyAll_loadUpdates,
    State.reg_setRegs _ _ _ _ (by simpa using hx), if_pos (by simpa using hkx)]
  simp [hkx]

/-! ### The three digits of a byte (45_memory_timer_key.md R246) -/

@[simp] theorem bcdDigits_length (v : Byte) : (bcdDigits v).length = 3 := rfl

theorem bcdDigits_spec (v : Byte) {h t o : Byte} (hd : bcdDigits v = [h, t, o]) :
    100 * h.toNat + 10 * t.toNat + o.toNat = v.toNat ∧ h.toNat ≤ 2 ∧ t.toNat ≤ 9 ∧ o.toNat ≤ 9 := by
  obtain ⟨rfl, rfl, rfl⟩ : _ ∧ _ ∧ _ := by simpa [bcdDigits] using hd
  have hv := v.isLt
  simp only [BitVec.toNat_ofNat]
  omega

/-! ### The key wait (45_memory_timer_key.md R260–R262) -/

/-- LD Vx, K with `k` the lowest pressed key. -/
theorem exec_ldVxK_pressed (x : Nibble) {s : State} {k : Nat} (h : lowestKey s.key = some k) :
    exec (.ldVxK x) s = .next (s.setReg x (BitVec.ofNat 8 k)) := by
  rw [exec_eq_applyAll, updates, h]
  rfl

/-- LD Vx, K with no key pressed. -/
theorem exec_ldVxK_waiting (x : Nibble) {s : State} (h : s.key = 0) :
    exec (.ldVxK x) s = .next (s.setPc (s.pc - 2)) := by
  have hnone : lowestKey s.key = none := by rw [h]; exact lowestKey_zero
  rw [exec_eq_applyAll, updates, hnone]
  rfl

/-- A waiting step: execute undoes the advance (R262). -/
theorem step_of_waiting {x : Nibble} {s : State} (hx : decodeWord s.nextOpcode = .ldVxK x)
    (hkey : s.input.keyWrite.getD s.key = 0) : step s = .next (s.beginCycle.setPc s.pc).endCycle := by
  refine step_of_exec ?_
  rw [hx, exec_ldVxK_waiting x (s.beginCycle_key.trans hkey), State.beginCycle_pc, BitVec.add_sub_cancel]

/-- A step whose instruction does nothing but undo the advance. -/
theorem OnlyChanges.step_holding_pc (s : State) :
    OnlyChanges {.op, .key, .evt, .dt, .st, .inputs, .cycleNo} s (s.beginCycle.setPc s.pc).endCycle := by
  have hset : OnlyChanges {.op, .pc, .key, .evt} s (s.beginCycle.setPc s.pc) :=
    (OnlyChanges.beginCycle s).trans ((OnlyChanges.setPc _ s.pc).mono (by simp))
  have hbegin : OnlyChanges {.op, .key, .evt} s (s.beginCycle.setPc s.pc) :=
    .of_insert (e := .pc) (hset.mono (by simp [Set.insert_subset_iff])) (State.setPc_pc _ _)
  exact (hbegin.mono (by simp [Set.insert_subset_iff])).trans
    ((OnlyChanges.endCycle _).mono (by simp [Set.insert_subset_iff]))

end Sys2Proof.Machine
end

section
/-! The statements of 45_memory_timer_key.md settled. -/

namespace Sys2Proof.Machine

/-- Settles O46: the block stored at I is the list of the three digits. -/
theorem bcdStoresThreeDigits : Obligations.BcdStoresThreeDigits := by
  intro x s
  obtain ⟨t, ht, hpeek, hrec, hframe⟩ :=
    exec_of_updates_store (i := .ldB x) (s := s) (bs := bcdDigits (s.reg x)) (n := 3) (bcdDigits_length _)
      (by decide) rfl
  have hdigits : bcdDigits (s.reg x) =
      [t.peek s.i.toNat, t.peek (s.i.toNat + 1), t.peek (s.i.toNat + 2)] := by
    have h0 : t.peek s.i.toNat = (bcdDigits (s.reg x))[0] := hpeek 0 (by simp)
    rw [h0, hpeek 1 (by simp), hpeek 2 (by simp)]
    rfl
  obtain ⟨hsum, hhundreds, htens, hones⟩ := bcdDigits_spec (s.reg x) hdigits
  exact ⟨t, ht, hsum, hhundreds, htens, hones, hrec, hframe⟩

/-- Settles O47: the block stored at I is the list of the registers V0 to Vx. -/
theorem storeRegistersToMemory : Obligations.StoreRegistersToMemory := by
  intro x s
  have hx := nibble_lt x
  obtain ⟨t, ht, hpeek, hrec, hframe⟩ :=
    exec_of_updates_store (i := .storeRegs x) (State.regsUpTo_length s x) (by omega) rfl
  refine ⟨t, ht, fun k hk => ?_, ?_, hframe⟩
  · have hlt : k.toNat < (s.regsUpTo x).length := by
      rw [State.regsUpTo_length]
      exact Nat.lt_succ_of_le hk
    rw [hpeek k.toNat hlt, State.regsUpTo_get, BitVec.ofNat_toNat, BitVec.setWidth_eq]
  · simpa only [exists_nibble_le_iff (p := fun k => 4096 ≤ s.i.toNat + k)] using hrec

/-- Settles O48: ADDR_WRAP is the first update, and the loads after it are of the bytes from I. -/
theorem loadRegistersFromMemory : Obligations.LoadRegistersFromMemory := by
  intro x s
  have h := exec_eq_applyAll (.loadRegs x) s
  refine ⟨_, h, fun k hk => reg_of_loadRegs h hk, Records.of_exec h fun e => ?_, exec_onlyChanges h⟩
  rw [exists_nibble_le_iff (p := fun k => 4096 ≤ s.i.toNat + k), ← blockWraps_iff]
  simp [updates, and_comm]

/-- Settles O49: the store leaves I, and a register that the load does not reach is in neither frame. -/
theorem storeThenLoadRoundTrips : Obligations.StoreThenLoadRoundTrips := by
  intro x s
  obtain ⟨t, ht, hstored, -, htframe⟩ := storeRegistersToMemory x s
  obtain ⟨u, hu, hloaded, -, huframe⟩ := loadRegistersFromMemory x t
  have hi : t.i = s.i := htframe .i (by simp [mem_blockBytes, byteAt])
  refine ⟨t, u, ht, hu, fun r => ?_, fun k hk => ?_⟩
  · by_cases hr : r ≤ x
    · rw [hloaded r hr, hi, hstored r hr]
    · have htr : t.reg r = s.reg r := htframe (.reg r) (by simp [mem_blockBytes, byteAt])
      have hur : u.reg r = t.reg r := huframe (.reg r) (by simpa [mem_regsTo] using hr)
      exact hur.trans htr
  · rw [huframe.peek (by simp [mem_regsTo, byteAt]), hstored k hk]

/-- Settles O50: the one update, by whether a key is pressed. -/
theorem keyWaitCompletesOrRepeats : Obligations.KeyWaitCompletesOrRepeats := by
  intro x s
  obtain ⟨t, ht⟩ : ∃ t, exec (.ldVxK x) s = .next t := ⟨_, exec_eq_applyAll _ _⟩
  refine ⟨t, ht, fun k hk hpressed hlowest => ?_, fun hnone => ?_⟩
  · obtain rfl := Host.Outcome.next.inj (ht.symm.trans (exec_ldVxK_pressed x (lowestKey_some hk hpressed hlowest)))
    refine ⟨?_, OnlyChanges.setReg s x _⟩
    rw [State.reg_setReg_self, BitVec.toNat_ofNat, Nat.mod_eq_of_lt (by omega)]
  · obtain rfl := Host.Outcome.next.inj (ht.symm.trans (exec_ldVxK_waiting x hnone))
    refine ⟨?_, OnlyChanges.setPc s _⟩
    rw [State.setPc_pc, BitVec.toNat_sub, Nat.add_comm]
    rfl

/-- Settles O51: execute undoes the advance, so a waiting step is the fetch and the end of the cycle. -/
theorem waitingStepHoldsPc : Obligations.WaitingStepHoldsPc := by
  intro x s hx hkey
  have hinput : (s.beginCycle.setPc s.pc).input = s.input := s.beginCycle_input
  refine ⟨_, step_of_waiting hx hkey, ?_, ?_, ?_, s.beginCycle_op, s.beginCycle_key.trans hkey,
    Records.of_evtWith s.beginCycle_evt (blockWraps_two_iff _), OnlyChanges.step_holding_pc s⟩
  · rw [State.endCycle_pc, State.setPc_pc]
  · rw [State.endCycle_dt, countDown_toNat, hinput, State.setPc_dt, State.beginCycle_dt]
  · rw [State.endCycle_st, countDown_toNat, hinput, State.setPc_st, State.beginCycle_st]

/-- Settles O44: the one update of each sets I. -/
theorem indexIsLoadedAndAdded : Obligations.IndexIsLoadedAndAdded := by
  intro x nnn s
  have hld := exec_eq_applyAll (.ldI nnn) s
  have hadd := exec_eq_applyAll (.addI x) s
  have hbyte : (zextByte (s.reg x)).toNat = (s.reg x).toNat := BitVec.toNat_setWidth_of_le (by decide)
  refine ⟨⟨_, hld, zextAddr_toNat nnn, exec_onlyChanges hld⟩, ⟨_, hadd, ?_, exec_onlyChanges hadd⟩⟩
  rw [← hbyte]
  exact BitVec.toNat_add s.i (zextByte (s.reg x))

/-- Settles O45: each copy is one update. -/
theorem timersAreCopied : Obligations.TimersAreCopied := fun x s =>
  ⟨exec_of_updates_setReg rfl, ⟨s.setDt (s.reg x), rfl, rfl, OnlyChanges.setDt s _⟩,
    ⟨s.setSt (s.reg x), rfl, rfl, OnlyChanges.setSt s _⟩⟩

end Sys2Proof.Machine
end

section
/-! The statement of 60_exceptions.md settled. -/

namespace Sys2Proof.Machine

/-- Settles O11: an instruction is its list of updates, and an update always has a result; a step ends the cycle after
it (R270). -/
theorem noInstructionFaultsAndNoStepStops : Obligations.NoInstructionFaultsAndNoStepStops :=
  ⟨fun i s => ⟨_, exec_eq_applyAll i s⟩, fun s => ⟨_, step_eq_applyAll s⟩⟩

end Sys2Proof.Machine
end

section
/-! The ROM load, and the statement of 70_reset_and_hazards.md settled. -/

namespace Sys2Proof.Machine

/-- An image that fits between 0x200 and the top of memory is stored as one block (R305, R306). -/
theorem State.loadRom_of_length_le {image : List Byte} (s : State) (h : image.length ≤ 3584) :
    s.loadRom image = some (s.pokeBlock image 0x200) := by
  rw [State.loadRom, if_pos h, State.loadBytes_eq s image 0x200 (by omega)]

/-- Settles O57: the load is the store of one block at 0x200, too short to meet itself. -/
theorem romLoadCopiesTheImage : Obligations.RomLoadCopiesTheImage := by
  intro image s h
  exact ⟨_, s.loadRom_of_length_le h, fun j hj => s.peek_pokeBlock_inside image 0x200 j (by omega) hj,
    OnlyChanges.pokeBlock s image 0x200⟩

end Sys2Proof.Machine
end
